-- ==== Sys2Proof/Word.lean ====
section
/-! DEFINITION. The two word types of the block: the byte of the stream and the 16-bit field of a frame
(spec/00_scope.md R11). -/

namespace Sys2Proof

/-- A byte, 8 bits, 0 to 255 (R11). -/
abbrev Byte := BitVec 8

/-- A 16-bit unsigned word of the payload (R26, R53). -/
abbrev Half := BitVec 16

end Sys2Proof
end

