-- ==== Sys2Proof/Config.lean ====
section
/-! DEFINITION. The parameters of spec/00_scope.md R8 (fixed by the source) and R9 (fixed by the spec's decisions), and
the FREE VALUES: opaque constants with no body that stand for what the spec calls unspecified or leaves to the
environment (spec/93_implementation_defined.md U3, U4, U6). -/

namespace Sys2Proof.Config

/-- `FRAME_LEN`, bytes in a RawFrame (R8). -/
abbrev frameLen : Nat := 17

/-- `PAYLOAD_LEN`, payload bytes, frame offsets 1 to 14 (R8). -/
abbrev payloadLen : Nat := 14

/-- `START_BYTE`, the value of frame offset 0 (R8). -/
abbrev startByte : Byte := 0xAA#8

/-- `END_BYTE`, the value of frame offset 16 (R8). -/
abbrev endByte : Byte := 0x55#8

/-- `CHK_OFF`, the frame offset of the checksum byte (R8). -/
abbrev chkOff : Nat := 15

/-- `CAPACITY`, the most records the history holds (R8). -/
abbrev capacity : Nat := 10

/-- `BAUD`, informational: no rule uses it (R8, R295). -/
abbrev baud : Nat := 115200

/-- `WBUF_CAP`, the cells of the working buffer (R9, decision D3). -/
abbrev wbufCap : Nat := 17

/-- `TIME_W`, the width of `now` and `last_receive_time` (R9, decision D5). -/
abbrev timeW : Nat := 32

/-- `ERR_W`, the width of `error_count` (R9, decision D6). -/
abbrev errW : Nat := 32

/-- `ERR_MAX`, where `error_count` saturates: 2^ERR_W - 1 (R9, R200). -/
abbrev errMax : Nat := 2 ^ errW - 1

/-- `COUNT_START_MISS`: whether dropping a leading non-start byte is counted (R9, R114, decision D7). -/
abbrev countStartMiss : Bool := true

/-- `LRT_RESET`, the reset value of `last_receive_time` (R9, R42, decision D8). -/
abbrev lrtReset : BitVec timeW := 0#32

/-- `RECORD_W`, bits of the packed record (R9, R28, decision D14). -/
abbrev recordW : Nat := 113

/-- The two orders in which the ports' operations of one step could be performed (R226). -/
inductive PortOrder where
  | cThenRx
  | rxThenC
deriving DecidableEq, Repr

/-- `PORT_ORDER` (R9, R226, decision D10). -/
abbrev portOrder : PortOrder := .cThenRx

/-- FREE VALUE. The time input `now` in step number `n` when the environment's schedule (`State.times`) does not list it
(R38, U6: any value, drawn per step, no monotonicity). -/
opaque freeNow : Nat → BitVec timeW

/-- FREE VALUE. `ev_record` in a step whose event is not `EV_ACCEPT` (R35, U4). -/
opaque freeEvRecord : Nat → BitVec recordW

/-- FREE VALUE. `c_rsp_len` in a step whose response kind is not 1 (R36, U3). -/
opaque freeRspLen : Nat → BitVec 4

/-- FREE VALUE. `c_rsp_recs[i]` where no record of a snapshot stands there (R36, U3). -/
opaque freeRspRec : Nat → Nat → BitVec recordW

/-- FREE VALUE. `c_rsp_word` in a step whose response kind is 0 or 1 (R36, U3). -/
opaque freeRspWord : Nat → BitVec (max errW timeW)

end Sys2Proof.Config
end

