-- ==== Sys2Proof/Syntax.lean ====
section
/-! DEFINITION. The syntax: the status values, the TelemetryRecord, the fields of a wire frame, ONE constructor of `Instr`
per row of spec/opcode_table.json, the encoded words of the four formats, and one line of the trace notation. -/

namespace Sys2Proof

/-- The six `imd_state` values, in the order of their codes (R92). -/
inductive ImdState where
  | imdOk | imdCalib | imdTest | imdWarn | imdError | isoError
deriving DecidableEq, Repr

/-- The five `vifc_state` values, in the order of their codes (R93). -/
inductive VifcState where
  | vifcOk | isoOn | tstErr | stale | comErr
deriving DecidableEq, Repr

/-- The five `mcu_state` values, in the order of their codes (R94). -/
inductive McuState where
  | mcuOk | mcuBlock | mcuStop | mcuLimit | mcuWarn
deriving DecidableEq, Repr

/-- The four RND gear values, in the order of their codes (R95). -/
inductive Gear where
  | n | r | d | blank
deriving DecidableEq, Repr

/-- What `VALIDATE` returns (R133). -/
inductive Verdict where
  | accept | rejStart | rejEnd | rejChk
deriving DecidableEq, Repr

/-- What one pass of `EXTRACT` returns (R112). -/
inductive PassResult where
  | wait | dropped | accepted
deriving DecidableEq, Repr

/-- The receiver-loop states (R31). -/
inductive RxState where
  | awaitingData | assembling | validating
deriving DecidableEq, Repr

/-- A TelemetryRecord: the thirteen fields of R26. The two temperatures are the signed numbers R147 and R148 give. -/
structure Record where
  motorRpm : Half
  motorTemp : Int
  mcuTemp : Int
  mcuFlags : Half
  mcuFaultLevel : Byte
  imdIsoResistance : Half
  imdStatusRaw : Half
  vifcStatusRaw : Half
  imdDataValid : Bool
  motorDataValid : Bool
  selfTestFailed : Bool
  imdState : ImdState
  vifcState : VifcState
deriving DecidableEq, Repr

/-- The fields of a wire frame that are not constants and not the checksum: the 14 payload bytes, frame offsets 1 to 14,
grouped as R81 groups them (letters r t u f l i m v and s z q p of R82). -/
structure Payload where
  motorRpm : Half
  motorTemp : Byte
  mcuTemp : Byte
  mcuFlags : Half
  mcuFaultLevel : Byte
  imdIsoResistance : Half
  imdStatusRaw : Half
  vifcStatusRaw : Half
  validity : Byte
deriving DecidableEq, Repr

/-- The nine arguments of `MKFRAME`; the temperatures are given as signed numbers (R102). -/
structure FrameArgs where
  rpm : Half
  mt : Int
  ct : Int
  flags : Half
  fault : Byte
  iso : Half
  imd : Half
  vifc : Half
  val : Byte
deriving DecidableEq, Repr

/-- The operations, one constructor per row of spec/opcode_table.json (R10). -/
inductive Instr where
  /-- `FRAME`: the 17-byte data word the RX byte stream spells (R81 to R83, R145). -/
  | frame (p : Payload)
  /-- `RXIDLE`: no byte on the RX port (R221). -/
  | rxidle
  /-- `RXB d`: the byte `d` on the RX port (R220). -/
  | rxb (d : Byte)
  /-- `CNOP`: no consumer call (R204). -/
  | cnop
  /-- `SNAP`: `get_snapshot` (R194). -/
  | snap
  /-- `GERR`: `get_error_count` (R202). -/
  | gerr
  /-- `GLRT`: `get_last_receive_time` (R203). -/
  | glrt
  /-- `CLR`: `clear` (R197). -/
  | clr
  /-- `RESET`: the reset input high (R270). -/
  | reset
  /-- `APPEND d` (R111). -/
  | append (d : Byte)
  /-- `EXTRACT` (R112). -/
  | extract
  /-- `DRAIN` (R119). -/
  | drain
  /-- `CHECKSUM p`, `p` 14 bytes (R131). -/
  | checksum (p : List Byte)
  /-- `VALIDATE c`, `c` 17 bytes (R133). -/
  | validate (c : List Byte)
  /-- `DECODE c`, `c` 17 bytes (R145). -/
  | decode (c : List Byte)
  /-- `IMDST s` (R171). -/
  | imdst (s : Half)
  /-- `VIFCST v` (R173). -/
  | vifcst (v : Half)
  /-- `MCUST f` (R175). -/
  | mcust (f : Half)
  /-- `GEAR f, mv` (R177). -/
  | gear (f : Half) (mv : Bool)
  /-- `PUSH r` (R191). -/
  | push (r : Record)
  /-- `RECERR` (R199). -/
  | recerr
  /-- `TOUCH` (R201). -/
  | touch
  /-- `FEED b0 … b(n-1)` (R102, R222). -/
  | feed (bs : List Byte)
  /-- `POLL` (R102). -/
  | poll
  /-- `MKFRAME(…)` (R102). -/
  | mkframe (a : FrameArgs)
  /-- `FEEDFRAME(…)` (R102). -/
  | feedframe (a : FrameArgs)
deriving DecidableEq, Repr

/-- An encoded word of one of the formats of R80; rows of format `NONE` have none. -/
inductive CodeWord where
  /-- Format `WIRE`: the frame as the 136-bit word `F`, byte at offset 0 most significant (R82). -/
  | wire (f : BitVec 136)
  /-- Format `RX`: `rx_valid` in bit 8, `rx_data` in bits 7:0 (R84). -/
  | rx (w : BitVec 9)
  /-- Format `C`: `c_valid` in bit 2, `c_op` in bits 1:0 (R85). -/
  | c (w : BitVec 3)
  /-- Format `RST`: the reset wire (R80). -/
  | rst (w : BitVec 1)
deriving DecidableEq, Repr

/-- What the environment drives on the reset wire and the two ports in one step (R16, R34). -/
structure Pins where
  rst : Bool
  cWord : BitVec 3
  rxWord : BitVec 9
deriving DecidableEq, Repr

/-- One line of the trace notation: the operation named on each port, if any (R101). -/
structure TraceLine where
  cOp : Option Instr
  rxOp : Option Instr
deriving DecidableEq, Repr

end Sys2Proof
end

