-- ==== Sys2Proof/Machine/Operands.lean ====
section
/-! DEFINITION. The operand forms: how bytes become fields and fields become bytes (spec/00_scope.md R11 to R14,
spec/20_memory.md R52, R53, spec/30_encoding.md R81, R87, R102). -/

namespace Sys2Proof.Machine

/-- `u16be(hi, lo) = {hi, lo} = hi * 256 + lo`, the byte at the lower offset more significant (R14, R53). -/
def u16be (hi lo : Byte) : Half := hi ++ lo

/-- The more significant byte of a 16-bit field, sent first (R53). -/
def hiByte (v : Half) : Byte := v.extractLsb' 8 8

/-- The less significant byte of a 16-bit field, sent second (R53). -/
def loByte (v : Half) : Byte := v.extractLsb' 0 8

/-- `s8(b)`, the byte as a signed number in two's complement, -128 to 127 (R14; general knowledge G1). -/
def s8 (b : Byte) : Int := if b.toNat ≤ 127 then (b.toNat : Int) else (b.toNat : Int) - 256

/-- A signed number as a byte, modulo 256 (R102). -/
def byteOfInt (x : Int) : Byte := BitVec.ofInt 8 x

/-- The byte at frame offset `k` of a window. Only read below the window's length, so the 0 is never seen. -/
def byteAt (c : List Byte) (k : Nat) : Byte := c.getD k 0#8

/-- The 14 payload bytes of a 17-byte window: offsets 1 to 14 (R12, R132). -/
def payloadOf (c : List Byte) : List Byte := (c.drop 1).take Config.payloadLen

/-- The bytewise exclusive or of a byte sequence, starting from 0x00 (R131). -/
def xorBytes (p : List Byte) : Byte := p.foldl (fun k b => k ^^^ b) 0#8

/-- The 14 payload bytes in transmission order (R52, R81). -/
def payloadBytes (p : Payload) : List Byte :=
  [hiByte p.motorRpm, loByte p.motorRpm, p.motorTemp, p.mcuTemp, hiByte p.mcuFlags, loByte p.mcuFlags,
   p.mcuFaultLevel, hiByte p.imdIsoResistance, loByte p.imdIsoResistance, hiByte p.imdStatusRaw,
   loByte p.imdStatusRaw, hiByte p.vifcStatusRaw, loByte p.vifcStatusRaw, p.validity]

/-- The 17 bytes of the frame with this payload, offset 0 first (R81). -/
def frameBytes (p : Payload) : List Byte :=
  Config.startByte :: (payloadBytes p ++ [xorBytes (payloadBytes p), Config.endByte])

/-- The payload `MKFRAME`'s arguments name (R102). -/
def argsPayload (a : FrameArgs) : Payload :=
  { motorRpm := a.rpm, motorTemp := byteOfInt a.mt, mcuTemp := byteOfInt a.ct, mcuFlags := a.flags,
    mcuFaultLevel := a.fault, imdIsoResistance := a.iso, imdStatusRaw := a.imd, vifcStatusRaw := a.vifc,
    validity := a.val }

end Sys2Proof.Machine
end

