-- ==== Sys2Proof/Machine/Flags.lean ====
section
/-! DEFINITION. The flag computations: the validity booleans (spec/42_telemetry_decoder.md R154 to R156), the four semantic
status mappings over bit-flag words (spec/43_status_mapping.md R170 to R180) with their codes and strings
(spec/30_encoding.md R90 to R95), and the receiver-loop state as a function of the fill count (spec/10_state.md R31). -/

namespace Sys2Proof.Machine

/-- `imd_data_valid`: validity byte bit 0 (R154). -/
def imdValid (v : Byte) : Bool := v.getLsbD 0

/-- `motor_data_valid`: validity byte bit 1 (R155). -/
def motorValid (v : Byte) : Bool := v.getLsbD 1

/-- `self_test_failed`: validity byte bit 7 (R156). -/
def selfTestBit (v : Byte) : Bool := v.getLsbD 7

/-- `IMDST`: the first matching tier wins (R171; "bits 0,1" is either bit, decision D16). -/
def imdst (s : Half) : ImdState :=
  let iso := s.getLsbD 0 || s.getLsbD 1
  let err := s.getLsbD 2
  let calib := s.getLsbD 3
  let test := s.getLsbD 4
  let warn := s.getLsbD 5
  if iso || (warn && (calib || test)) then .isoError
  else if err then .imdError
  else if warn then .imdWarn
  else if test then .imdTest
  else if calib then .imdCalib
  else .imdOk

/-- `VIFCST`: the first matching tier wins (R173; "bits 12/13" is either bit, decision D16). -/
def vifcst (v : Half) : VifcState :=
  let com := v.getLsbD 1 || v.getLsbD 2 || v.getLsbD 4
  let stale := v.getLsbD 8
  let tst := v.getLsbD 12 || v.getLsbD 13
  let isoff := !v.getLsbD 0
  if com then .comErr
  else if stale then .stale
  else if tst then .tstErr
  else if isoff then .isoOn
  else .vifcOk

/-- `MCUST`: the highest set bit of bits 3 to 0 (R175). -/
def mcust (f : Half) : McuState :=
  if f.getLsbD 3 then .mcuWarn
  else if f.getLsbD 2 then .mcuLimit
  else if f.getLsbD 1 then .mcuStop
  else if f.getLsbD 0 then .mcuBlock
  else .mcuOk

/-- `GEAR`: the 2-bit field `f[3:2]`, blank when the motor data are invalid (R177, decision D17). -/
def gear (f : Half) (mv : Bool) : Gear :=
  let g : BitVec 2 := f.extractLsb' 2 2
  if !mv then .blank
  else if g = 0#2 then .n
  else if g = 1#2 then .r
  else if g = 2#2 then .d
  else .blank

/-- The 3-bit code of an `imd_state` on the snapshot bus (R92). -/
def imdCode : ImdState → BitVec 3
  | .imdOk => 0 | .imdCalib => 1 | .imdTest => 2 | .imdWarn => 3 | .imdError => 4 | .isoError => 5

/-- The string of an `imd_state` (R92). -/
def imdString : ImdState → String
  | .imdOk => "IMD OK" | .imdCalib => "IMD CALIB" | .imdTest => "IMD TEST" | .imdWarn => "IMD WARN"
  | .imdError => "IMD ERROR" | .isoError => "ISO ERROR"

/-- The 3-bit code of a `vifc_state` on the snapshot bus (R93). -/
def vifcCode : VifcState → BitVec 3
  | .vifcOk => 0 | .isoOn => 1 | .tstErr => 2 | .stale => 3 | .comErr => 4

/-- The string of a `vifc_state` (R93). -/
def vifcString : VifcState → String
  | .vifcOk => "VIFC OK" | .isoOn => "VI ISO ON" | .tstErr => "VI TST ERR" | .stale => "VI STALE"
  | .comErr => "VI COM ERR"

/-- The 3-bit code of an `mcu_state` (R94). -/
def mcuCode : McuState → BitVec 3
  | .mcuOk => 0 | .mcuBlock => 1 | .mcuStop => 2 | .mcuLimit => 3 | .mcuWarn => 4

/-- The string of an `mcu_state` (R94). -/
def mcuString : McuState → String
  | .mcuOk => "MCU OK" | .mcuBlock => "MCU BLOCK" | .mcuStop => "MCU STOP" | .mcuLimit => "MCU LIMIT"
  | .mcuWarn => "MCU WARN"

/-- The code of a gear value: the 2-bit field when it is shown, 3 for blank (R95). -/
def gearCode : Gear → BitVec 2
  | .n => 0 | .r => 1 | .d => 2 | .blank => 3

/-- The string of a gear value; `GEAR_BLANK` has none (R95, decision D17). -/
def gearString : Gear → Option String
  | .n => some "N" | .r => some "R" | .d => some "D" | .blank => none

/-- `rxstate` as a function of `wlen`; 17 is seen only inside an `RXB` (R31). -/
def rxstateOf (wlen : Nat) : RxState :=
  if wlen = 0 then .awaitingData else if wlen ≤ 16 then .assembling else .validating

/-- The code on `rxstate_o` (R31, decision D15). -/
def rxstateCode : RxState → BitVec 2
  | .awaitingData => 0 | .assembling => 1 | .validating => 2

end Sys2Proof.Machine
end

