-- ==== Sys2Proof/WellFormed.lean ====
section
/-! DEFINITION. Well-formed syntax: the shapes the operands of an operation have by the spec, as decidable checks. -/

namespace Sys2Proof

/-- The range of a signed 8-bit number, -128 to 127 (R14). -/
def inS8 (x : Int) : Bool := decide (-128 ≤ x) && decide (x ≤ 127)

/-- A record that some 14 payload bytes decode to: both temperatures are signed 8-bit numbers and both status values are
the functions of the raw words stored beside them (R26, R157, R158). -/
def Record.wf (r : Record) : Bool :=
  inS8 r.motorTemp && inS8 r.mcuTemp && decide (r.imdState = Machine.imdst r.imdStatusRaw)
    && decide (r.vifcState = Machine.vifcst r.vifcStatusRaw)

/-- `MKFRAME`'s two temperatures are signed 8-bit numbers (R102, R147, R148). -/
def FrameArgs.wf (a : FrameArgs) : Bool := inS8 a.mt && inS8 a.ct

/-- Well-formed operations: `CHECKSUM` takes exactly 14 bytes (R131), `VALIDATE` and `DECODE` exactly 17 (R133, R145),
`PUSH` a record (R191, R26), `MKFRAME` and `FEEDFRAME` signed 8-bit temperatures (R102). -/
def Instr.wf : Instr → Bool
  | .frame _ => true
  | .rxidle => true
  | .rxb _ => true
  | .cnop => true
  | .snap => true
  | .gerr => true
  | .glrt => true
  | .clr => true
  | .reset => true
  | .append _ => true
  | .extract => true
  | .drain => true
  | .checksum p => decide (p.length = 14)
  | .validate c => decide (c.length = 17)
  | .decode c => decide (c.length = 17)
  | .imdst _ => true
  | .vifcst _ => true
  | .mcust _ => true
  | .gear _ _ => true
  | .push r => r.wf
  | .recerr => true
  | .touch => true
  | .feed _ => true
  | .poll => true
  | .mkframe a => a.wf
  | .feedframe a => a.wf

end Sys2Proof
end

