-- ==== Sys2Proof/Decode.lean ====
section
/-! DEFINITION. The decoders of the formats of spec/30_encoding.md R80 to R85 (total; a word that spells nothing is rejected
by name), the encoder, the numbering of spec/opcode_table.json, and the expansion of a trace line (R101). -/

namespace Sys2Proof

/-- Why a word decodes to no operation. -/
inductive DecodeError where
  /-- Offset 0 of a window is not 0xAA (R83). -/
  | startMarker
  /-- Offset 16 of a window is not 0x55 (R83). -/
  | endMarker
  /-- Offset 15 of a window is not the exclusive or of offsets 1 to 14 (R83). -/
  | checksum
  /-- The reset wire is low: it names no operation (R80). -/
  | resetLow
  /-- A byte sequence that is not 17 bytes long (R80). -/
  | length
deriving DecidableEq, Repr

/-- Format `RX`: bit 8 is `rx_valid`, bits 7:0 are `rx_data`, ignored when `rx_valid` is 0 (R84, decision D29). -/
def decodeRx (w : BitVec 9) : Instr :=
  if w.getLsbD 8 then .rxb (w.extractLsb' 0 8) else .rxidle

/-- Format `C`: bit 2 is `c_valid`, bits 1:0 are `c_op`, ignored when `c_valid` is 0 (R85, R89). -/
def decodeC (w : BitVec 3) : Instr :=
  if w.getLsbD 2 then
    let op : BitVec 2 := w.extractLsb' 0 2
    if op = 0b00#2 then .snap
    else if op = 0b01#2 then .gerr
    else if op = 0b10#2 then .glrt
    else .clr
  else .cnop

/-- Byte `Bk = F[135-8k : 128-8k]` of the frame word (R82). -/
def wireByte (f : BitVec 136) (k : Nat) : Byte := f.extractLsb' (128 - 8 * k) 8

/-- The 17 bytes of a frame word, offset 0 first (R82). -/
def wireBytes (f : BitVec 136) : List Byte := (List.range 17).map (wireByte f)

/-- The mask of the constant bits (R83). -/
def wireMask : BitVec 136 := 0xFF000000000000000000000000000000FF#136

/-- The value of the constant bits (R83). -/
def wireMatch : BitVec 136 := 0xAA00000000000000000000000000000055#136

/-- The exclusive or of `B1` to `B14` (R83). -/
def wireChecksum (f : BitVec 136) : Byte :=
  Machine.xorBytes (((List.range 14).map (· + 1)).map (wireByte f))

/-- The payload fields at the bit positions of R87. -/
def wirePayload (f : BitVec 136) : Payload :=
  { motorRpm := f.extractLsb' 112 16
    motorTemp := f.extractLsb' 104 8
    mcuTemp := f.extractLsb' 96 8
    mcuFlags := f.extractLsb' 80 16
    mcuFaultLevel := f.extractLsb' 72 8
    imdIsoResistance := f.extractLsb' 56 16
    imdStatusRaw := f.extractLsb' 40 16
    vifcStatusRaw := f.extractLsb' 24 16
    validity := f.extractLsb' 16 8 }

/-- Format `WIRE`: a valid frame satisfies the mask and match and the checksum constraint; anything else spells no frame
(R83, R99). -/
def decodeWire (f : BitVec 136) : Except DecodeError Instr :=
  if f &&& wireMask = wireMatch then
    if wireByte f 15 = wireChecksum f then .ok (.frame (wirePayload f)) else .error .checksum
  else if wireByte f 0 = Config.startByte then .error .endMarker
  else .error .startMarker

/-- Format `RST`: 1 is `RESET`; 0 names no operation, it selects the ordinary step (R80, R270). -/
def decodeRst (w : BitVec 1) : Except DecodeError Instr :=
  if w = 1#1 then .ok .reset else .error .resetLow

/-- The decoder, total on the words of every format. -/
def decode : CodeWord → Except DecodeError Instr
  | .wire f => decodeWire f
  | .rx w => .ok (decodeRx w)
  | .c w => .ok (decodeC w)
  | .rst w => decodeRst w

/-- Bytes, offset 0 first, as one word with offset 0 most significant (R82). -/
def assemble (c : List Byte) : BitVec 136 :=
  c.foldl (fun f b => (f <<< 8) ||| b.setWidth 136) 0#136

/-- The decoder on any byte sequence: a 17-byte window is the frame word its bytes spell (R82, R83). -/
def decodeWindow (c : List Byte) : Except DecodeError Instr :=
  if c.length = 17 then decodeWire (assemble c) else .error .length

/-- The frame word of a payload: the markers and the checksum around the 14 payload bytes (R82). -/
def encodeWire (p : Payload) : BitVec 136 :=
  Config.startByte ++ p.motorRpm ++ p.motorTemp ++ p.mcuTemp ++ p.mcuFlags ++ p.mcuFaultLevel
    ++ p.imdIsoResistance ++ p.imdStatusRaw ++ p.vifcStatusRaw ++ p.validity
    ++ Machine.xorBytes (Machine.payloadBytes p) ++ Config.endByte

/-- The encoder: the word of an operation that has one. Ignored bits are written 0; a row of format `NONE` has no
encoding (R80). -/
def encode : Instr → Option CodeWord
  | .frame p => some (.wire (encodeWire p))
  | .rxidle => some (.rx 0b000000000#9)
  | .rxb d => some (.rx (1#1 ++ d))
  | .cnop => some (.c 0b000#3)
  | .snap => some (.c 0b100#3)
  | .gerr => some (.c 0b101#3)
  | .glrt => some (.c 0b110#3)
  | .clr => some (.c 0b111#3)
  | .reset => some (.rst 1#1)
  | .append _ => none
  | .extract => none
  | .drain => none
  | .checksum _ => none
  | .validate _ => none
  | .decode _ => none
  | .imdst _ => none
  | .vifcst _ => none
  | .mcust _ => none
  | .gear _ _ => none
  | .push _ => none
  | .recerr => none
  | .touch => none
  | .feed _ => none
  | .poll => none
  | .mkframe _ => none
  | .feedframe _ => none

/-- The code word that spec/opcode_table.json's number `w` of `nbits` bits stands for, in the widths of the formats or in
those widths rounded up to whole bytes. Eight bits are the width both of a `C` word and of the reset wire: the number 1 is
the row `RESET`, every other number below 8 a `C` word (notes/assumptions/10.md). -/
def tableWord (nbits w : Nat) : Option CodeWord :=
  if nbits = 136 ∧ w < 2 ^ 136 then some (.wire (BitVec.ofNat 136 w))
  else if (nbits = 9 ∨ nbits = 16) ∧ w < 512 then some (.rx (BitVec.ofNat 9 w))
  else if (nbits = 1 ∨ nbits = 8) ∧ w = 1 then some (.rst 1#1)
  else if (nbits = 3 ∨ nbits = 8) ∧ w < 8 then some (.c (BitVec.ofNat 3 w))
  else if nbits = 1 ∧ w = 0 then some (.rst 0#1)
  else none

/-- The instruction the decoder reads from a number of spec/opcode_table.json. -/
def decodeTableWord (nbits w : Nat) : Option Instr :=
  match tableWord nbits w with
  | some cw => (decode cw).toOption
  | none => none

/-- The RX port word an operation named on the RX port stands for; anything else leaves the port idle (R101). -/
def rxWordOf : Option Instr → BitVec 9
  | some i => match encode i with
    | some (.rx w) => w
    | _ => 0#9
  | none => 0#9

/-- The C port word an operation named on the C port stands for; anything else leaves the port idle (R101). -/
def cWordOf : Option Instr → BitVec 3
  | some i => match encode i with
    | some (.c w) => w
    | _ => 0#3
  | none => 0#3

/-- The expansion of a trace line: a port with no operation named is idle (R101). -/
def TraceLine.pins (l : TraceLine) : Pins :=
  { rst := false, cWord := cWordOf l.cOp, rxWord := rxWordOf l.rxOp }

/-- What the environment drives when it has nothing to present: 0 on `rst`, `c_valid` and `rx_valid` (R274). -/
def idlePins : Pins := { rst := false, cWord := 0#3, rxWord := 0#9 }

/-- What the environment drives to present one byte and no consumer operation (R84, R102). -/
def bytePins (b : Byte) : Pins := { rst := false, cWord := 0#3, rxWord := 1#1 ++ b }

/-- The steps in which the environment presents a code word: one step for a port word or the reset wire, with the other
port idle; for a frame its 17 bytes in 17 consecutive steps, offset 0 first (R52, R86). -/
def codePins : CodeWord → List Pins
  | .wire f => (wireBytes f).map bytePins
  | .rx w => [{ rst := false, cWord := 0#3, rxWord := w }]
  | .c w => [{ rst := false, cWord := w, rxWord := 0#9 }]
  | .rst w => [{ rst := decide (w = 1#1), cWord := 0#3, rxWord := 0#9 }]

end Sys2Proof
end

