-- ==== Sys2Proof/Machine/State.lean ====
section
/-! DEFINITION. The state as plain data: the five things of spec/10_state.md R20 (the two stores as the sequences of R22 and
R27), the outputs of the latest step (R35, R36), the environment's inputs (R34, R38), the ghosts (R33) and the model's own
fields; the reasons a step can stop; and the state after reset (R42). -/

namespace Sys2Proof.Machine

/-- The event of a step; a sum type, so a record stands beside `EV_ACCEPT` only (R241, U4). -/
inductive Event where
  | none
  | accept (r : Record)
  | errStart
  | errEnd
  | errChk
  /-- `EV_ERR_DECODE`: reserved, produced by nothing (R246, K1). -/
  | errDecode
deriving DecidableEq, Repr

/-- The response to the C port operation of a step; a sum type, so only what R36 specifies exists (U3). -/
inductive Response where
  | none
  | snapshot (recs : List Record)
  | errorCount (w : BitVec Config.errW)
  | lastRxTime (w : BitVec Config.timeW)
deriving DecidableEq, Repr

/-- The value returned by the latest operation that returns one (rows of format `NONE`). The model's own. -/
inductive Ret where
  | none
  | byte (b : Byte)
  | verdict (v : Verdict)
  | pass (p : PassResult)
  | record (r : Record)
  | imd (x : ImdState)
  | vifc (x : VifcState)
  | mcu (x : McuState)
  | gear (x : Gear)
  | bytes (bs : List Byte)
deriving DecidableEq, Repr

/-- The ghost quantities of R33, and the sequence of all events other than `EV_NONE` so far, oldest first. Nothing the block
does reads them. -/
structure Ghost where
  nIn : Nat
  nOut : Nat
  nAcc : Nat
  nErr : Nat
  events : List Event
deriving DecidableEq, Repr

/-- The machine. -/
structure State where
  /-- The working buffer `wbuf = [W[0], …, W[wlen-1]]`, oldest byte first; `wlen` is its length (R21, R22). -/
  wbuf : List Byte
  /-- The history `hist = [H[0], …, H[hlen-1]]`, oldest record first; `hlen` is its length (R27). -/
  hist : List Record
  /-- `ERROR_COUNT` (R30, R200). -/
  errorCount : BitVec Config.errW
  /-- `LAST_RX_TIME` (R30, R201). -/
  lastReceiveTime : BitVec Config.timeW
  /-- The ghosts (R33). -/
  ghost : Ghost
  /-- The event output of the latest step (R35). -/
  event : Event
  /-- The response outputs of the latest step (R36). -/
  rsp : Response
  /-- The model's own: the value the latest value-returning operation returned. -/
  ret : Ret
  /-- The environment's words for the coming steps, the next step's first (R16, R225). -/
  inbox : List Pins
  /-- The environment's values of `now` for the coming steps, the next step's first (R38). -/
  times : List (BitVec Config.timeW)
  /-- The model's own: the number of steps taken, the argument of the free values. -/
  steps : Nat
deriving DecidableEq, Repr

/-- Why the machine stops. -/
inductive Fault where
  /-- `APPEND` with no free cell: R111 requires `wlen <= 16`, and cell `W[17]` does not exist (R21). Raised by `APPEND`, and by
  `RXB` and the operations that expand to it, only from a state with `wlen >= 17`, which no run reaches (R23, K5). Safe. -/
  | appendWithoutRoom
deriving DecidableEq, Repr

/-- Why an operation has no meaning. -/
inductive Refusal where
  /-- An instruction that has no meaning yet; raised by an arm of `exec` only. Safe. -/
  | notModelled (mnemonic : String)
  /-- `CHECKSUM`, `VALIDATE` or `DECODE` given a byte sequence of a length it is not defined on (R131, R133, R145); raised
  by their meanings. Safe: such a term is no operation of the spec. -/
  | malformedOperand (mnemonic : String)
deriving DecidableEq, Repr

/-- What executing something answers. -/
abbrev Result := Host.Outcome State Fault Refusal

/-- The ghosts at reset (R33). -/
def Ghost.zero : Ghost := { nIn := 0, nOut := 0, nAcc := 0, nErr := 0, events := [] }

/-- The machine right after reset (R42, R270): both stores empty, both status registers 0, outputs `EV_NONE` and response
kind 0; the environment has scheduled nothing. -/
def State.reset : State :=
  { wbuf := [], hist := [], errorCount := 0#32, lastReceiveTime := Config.lrtReset, ghost := Ghost.zero,
    event := .none, rsp := .none, ret := .none, inbox := [], times := [], steps := 0 }

end Sys2Proof.Machine
end

