-- ==== Sys2Proof/Machine/Window.lean ====
section
/-! DEFINITION. The pure functions of a 17-byte window: the Packet Validator (spec/41_packet_validator.md R130 to R140) and
the Telemetry Decoder (spec/42_telemetry_decoder.md R145 to R163). -/

namespace Sys2Proof.Machine

/-- `VALIDATE c`: start marker, end marker, checksum, in this order; the first that fails names the result (R133, R134). -/
def validate (c : List Byte) : Verdict :=
  if byteAt c 0 ≠ Config.startByte then .rejStart
  else if byteAt c 16 ≠ Config.endByte then .rejEnd
  else if byteAt c Config.chkOff ≠ xorBytes (payloadOf c) then .rejChk
  else .accept

/-- `DECODE c`: every field from fixed positions of offsets 1 to 14; no range is checked and no field is gated by a
validity flag (R145 to R160). -/
def decodeRecord (c : List Byte) : Record :=
  let imd := u16be (byteAt c 10) (byteAt c 11)
  let vifc := u16be (byteAt c 12) (byteAt c 13)
  { motorRpm := u16be (byteAt c 1) (byteAt c 2)
    motorTemp := s8 (byteAt c 3)
    mcuTemp := s8 (byteAt c 4)
    mcuFlags := u16be (byteAt c 5) (byteAt c 6)
    mcuFaultLevel := byteAt c 7
    imdIsoResistance := u16be (byteAt c 8) (byteAt c 9)
    imdStatusRaw := imd
    vifcStatusRaw := vifc
    imdDataValid := imdValid (byteAt c 14)
    motorDataValid := motorValid (byteAt c 14)
    selfTestFailed := selfTestBit (byteAt c 14)
    imdState := imdst imd
    vifcState := vifcst vifc }

end Sys2Proof.Machine
end

