-- ==== Sys2Proof/Machine/Ops.lean ====
section
/-! DEFINITION. The named operations: the primitives of spec/00_scope.md R15, the register and buffer updates, taking a
rejection (the block's exception, spec/60_exceptions.md R247) as one operation, extraction, and the frame of one step. -/

namespace Sys2Proof.Machine

/-- Sequencing: a fault or a refusal ends it. -/
def andThen (r : Result) (f : State → Result) : Result :=
  match r with
  | .next s => f s
  | .fault e => .fault e
  | .refused e => .refused e

/-- `wlen` (R21). -/
def State.wlen (s : State) : Nat := s.wbuf.length

/-- `hlen` (R27). -/
def State.hlen (s : State) : Nat := s.hist.length

/-- `W[i]`: a cell is readable below `wlen` only (R15, R24). -/
def State.readCell (s : State) (i : Nat) : Option Byte := s.wbuf[i]?

/-- `H[i]`: a slot is readable below `hlen` only (R15, R27). -/
def State.readSlot (s : State) (i : Nat) : Option Record := s.hist[i]?

/-- `MemRead(WBUF, i, n)`, defined only when `i + n <= wlen` (R15). -/
def State.memReadWbuf (s : State) (i n : Nat) : Option (List Byte) :=
  if i + n ≤ s.wlen then some ((s.wbuf.drop i).take n) else none

/-- `MemRead(HIST, i, n)`, defined only when `i + n <= hlen` (R15). -/
def State.memReadHist (s : State) (i n : Nat) : Option (List Record) :=
  if i + n ≤ s.hlen then some ((s.hist.drop i).take n) else none

/-- `MemWrite(WBUF, i, n, v)` with `n = |v|`, defined only when `i + n <= wlen` (R15). -/
def State.memWriteWbuf (s : State) (i : Nat) (v : List Byte) : Option State :=
  if i + v.length ≤ s.wlen then some { s with wbuf := s.wbuf.take i ++ v ++ s.wbuf.drop (i + v.length) } else none

/-- `MemWrite(HIST, i, n, v)` with `n = |v|`, defined only when `i + n <= hlen` (R15). -/
def State.memWriteHist (s : State) (i : Nat) (v : List Record) : Option State :=
  if i + v.length ≤ s.hlen then some { s with hist := s.hist.take i ++ v ++ s.hist.drop (i + v.length) } else none

/-- The canonical form of the block's two stores. A sequence has no cell beyond its length, so equal contents are equal
data (R22, R27, U1, U2); at most 17 cells and 10 slots are filled (R21, R27), and every slot holds a record that some 14
payload bytes decode to (R26). -/
def Memory.wf (s : State) : Bool :=
  decide (s.wlen ≤ Config.wbufCap) && decide (s.hlen ≤ Config.capacity) && s.hist.all Record.wf

/-- The time input in the current step: the environment's scheduled value, else any value (R38, U6). -/
def State.now (s : State) : BitVec Config.timeW :=
  match s.times with
  | t :: _ => t
  | [] => Config.freeNow s.steps

/-- `emit(e)`: sets the event output of this step; the ghost sequence keeps what is not `EV_NONE` (R15). -/
def State.emit (s : State) (e : Event) : State :=
  { s with
    event := e
    ghost := { s.ghost with events := if e = .none then s.ghost.events else s.ghost.events ++ [e] } }

/-- Sets the response outputs of this step (R36). -/
def State.respond (s : State) (r : Response) : State := { s with rsp := r }

/-- Records the value an operation returns. -/
def State.setRet (s : State) (v : Ret) : State := { s with ret := v }

/-- A counter that counts up by one and stops at its greatest value (R199, R200). -/
def saturatingSucc {w : Nat} (c : BitVec w) : BitVec w :=
  if c.toNat < 2 ^ w - 1 then c + 1#w else c

/-- `RECERR`: the saturating count and its ghost (R199). -/
def State.recErr (s : State) : State :=
  { s with errorCount := saturatingSucc s.errorCount, ghost := { s.ghost with nErr := s.ghost.nErr + 1 } }

/-- `TOUCH`: copies `now`, comparing nothing (R201). -/
def State.touch (s : State) : State := { s with lastReceiveTime := s.now }

/-- `PUSH r` on a history: evict the oldest when it holds ten, then insert as the newest (R191). -/
def pushRecord (h : List Record) (r : Record) : List Record :=
  (if h.length = Config.capacity then h.drop 1 else h) ++ [r]

/-- `PUSH r` (R191). -/
def State.push (s : State) (r : Record) : State := { s with hist := pushRecord s.hist r }

/-- `hist <- []` (R197). -/
def State.clearHist (s : State) : State := { s with hist := [] }

/-- `W[wlen] <- d ; wlen <- wlen + 1` and the ghost `n_in` (R111). -/
def State.appendByte (s : State) (d : Byte) : State :=
  { s with wbuf := s.wbuf ++ [d], ghost := { s.ghost with nIn := s.ghost.nIn + 1 } }

/-- `wbuf <- drop(k, wbuf)` and the ghost `n_out` (R112). -/
def State.dropBytes (s : State) (k : Nat) : State :=
  { s with wbuf := s.wbuf.drop k, ghost := { s.ghost with nOut := s.ghost.nOut + k } }

/-- The ghost `n_acc` (R112). -/
def State.countAccepted (s : State) : State := { s with ghost := { s.ghost with nAcc := s.ghost.nAcc + 1 } }

/-- `APPEND d`: requires a free cell (R111). -/
def append (d : Byte) (s : State) : Result :=
  if s.wlen ≤ 16 then .next (s.appendByte d) else .fault .appendWithoutRoom

/-- The kinds of rejection (R241 to R245). -/
inductive Rejection where
  | start | endMark | checksum
deriving DecidableEq, Repr

/-- The event of a rejection (R241). -/
def rejectionEvent : Rejection → Event
  | .start => .errStart
  | .endMark => .errEnd
  | .checksum => .errChk

/-- Whether a rejection performs `RECERR`: a missing start marker only if `COUNT_START_MISS` (R243 to R245). -/
def rejectionCounted (countStart : Bool) : Rejection → Bool
  | .start => countStart
  | .endMark => true
  | .checksum => true

/-- TAKING A REJECTION, the block's exception entry, complete: the event, `RECERR`, the removal of `wbuf[0]`, in this order.
Nothing is saved and control goes nowhere (R247); there is no return (R250). -/
def reject (countStart : Bool) (k : Rejection) (s : State) : State :=
  let s1 := s.emit (rejectionEvent k)
  let s2 := if rejectionCounted countStart k then s1.recErr else s1
  s2.dropBytes 1

/-- Acceptance: decode, push, touch, remove 17 bytes, the event (R112 step 4, R223). -/
def acceptFrame (c : List Byte) (s : State) : State :=
  let r := decodeRecord c
  ((((s.push r).touch).dropBytes Config.frameLen).countAccepted).emit (.accept r)

/-- One pass through steps 1 to 4, for either value of `COUNT_START_MISS` (R112). The verdict `V_REJ_START` cannot come
back here (R135). -/
def extractPass (countStart : Bool) (s : State) : State × PassResult :=
  if s.wlen < Config.frameLen then (s.emit .none, .wait)
  else if byteAt s.wbuf 0 ≠ Config.startByte then (reject countStart .start s, .dropped)
  else
    let c := s.wbuf.take Config.frameLen
    match validate c with
    | .accept => (acceptFrame c s, .accepted)
    | .rejStart => (reject countStart .start s, .dropped)
    | .rejEnd => (reject countStart .endMark s, .dropped)
    | .rejChk => (reject countStart .checksum s, .dropped)

/-- `EXTRACT` with this hardware's `COUNT_START_MISS` (R112, R114). -/
def extract (s : State) : State × PassResult := extractPass Config.countStartMiss s

/-- Passes of `EXTRACT` until one waits, at most `fuel` of them (R119). -/
def drainLoop : Nat → State → State
  | 0, s => s
  | fuel + 1, s =>
    match extract s with
    | (s', .wait) => s'
    | (s', .dropped) => drainLoop fuel s'
    | (s', .accepted) => drainLoop fuel s'

/-- `DRAIN`: every pass that does not stop removes at least one byte, so `wlen + 1` passes are enough (R119). -/
def drain (s : State) : State := drainLoop (s.wlen + 1) s

/-- `RXB d` as a shared operation: `APPEND d`, then one pass of `EXTRACT` (R220). -/
def receiveByte (d : Byte) (s : State) : Result :=
  andThen (append d s) fun s1 => .next (extract s1).1

/-- What reset leaves of the block; the environment's schedule and the step count are not the block's (R270, R42). -/
def State.resetBlock (s : State) : State :=
  { State.reset with inbox := s.inbox, times := s.times, steps := s.steps }

/-- The start of a step: the event and the response are made anew in every step (R32, R240, R282). -/
def State.beginStep (s : State) : State := { s with event := .none, rsp := .none }

/-- The end of a step: the environment's value of `now` moves on. -/
def State.endStep (s : State) : State := { s with times := s.times.tail, steps := s.steps + 1 }

/-- One step: the C port operation, then the RX port operation on the state it leaves (R16, R226). -/
def runStep (cOp rxOp : State → Result) (s : State) : Result :=
  andThen (match Config.portOrder with
    | .cThenRx => andThen (cOp s.beginStep) rxOp
    | .rxThenC => andThen (rxOp s.beginStep) cOp) fun s1 => .next s1.endStep

end Sys2Proof.Machine
end

