-- ==== Sys2Proof/Machine/Assembler.lean ====
section
/-! DEFINITION. The meanings of the Frame Assembler's micro-operations (spec/40_frame_assembler.md). -/

namespace Sys2Proof.Machine

/-- `APPEND d` (R111). -/
def execAppend (d : Byte) (s : State) : Result := append d s

/-- `EXTRACT`: one pass, and what it returns (R112). -/
def execExtract (s : State) : Result :=
  let p := extract s
  .next (p.1.setRet (.pass p.2))

/-- `DRAIN`: passes until one waits (R119). -/
def execDrain (s : State) : Result := .next (drain s)

end Sys2Proof.Machine
end

