-- ==== Sys2Proof/Machine/Decoder.lean ====
section
/-! DEFINITION. The meaning of the Telemetry Decoder's micro-operation (spec/42_telemetry_decoder.md). -/

namespace Sys2Proof.Machine

/-- `DECODE c` on exactly 17 bytes, valid or not (R145, R161); it writes no state of the block. -/
def execDecode (c : List Byte) (s : State) : Result :=
  if c.length = Config.frameLen then .next (s.setRet (.record (decodeRecord c)))
  else .refused (.malformedOperand "DECODE")

end Sys2Proof.Machine
end

