-- ==== Sys2Proof/Machine/History.lean ====
section
/-! DEFINITION. The meanings of the History Buffer's operations and of the consumer port (spec/44_history_buffer.md). -/

namespace Sys2Proof.Machine

/-- `PUSH r` (R191). -/
def execPush (r : Record) (s : State) : Result := .next (s.push r)

/-- `RECERR` (R199). -/
def execRecerr (s : State) : Result := .next s.recErr

/-- `TOUCH` (R201). -/
def execTouch (s : State) : Result := .next s.touch

/-- `CNOP`: response kind 0, nothing else (R204). -/
def execCnop (s : State) : Result := .next (s.respond .none)

/-- `SNAP`: a copy of the history, oldest first; writes no state of the block (R194, R195). -/
def execSnap (s : State) : Result := .next (s.respond (.snapshot s.hist))

/-- `GERR` (R202). -/
def execGerr (s : State) : Result := .next (s.respond (.errorCount s.errorCount))

/-- `GLRT` (R203). -/
def execGlrt (s : State) : Result := .next (s.respond (.lastRxTime s.lastReceiveTime))

/-- `CLR`: empties the history and nothing else (R197, R198). -/
def execClr (s : State) : Result := .next (s.clearHist.respond .none)

end Sys2Proof.Machine
end

