-- ==== Sys2Proof/Machine/Receiver.lean ====
section
/-! DEFINITION. The meanings of the RX port's operations, of the reset input, of the wire frame and of the pseudo-operations
that expand to steps of the RX port (spec/45_receiver_loop.md, spec/70_reset_and_hazards.md R270, spec/30_encoding.md R102). -/

namespace Sys2Proof.Machine

/-- `RXB d` (R220). -/
def execRxb (d : Byte) (s : State) : Result := receiveByte d s

/-- `RXIDLE`: emits `EV_NONE`, changes nothing (R221). -/
def execRxidle (s : State) : Result := .next (s.emit .none)

/-- `RESET`: the event is `EV_NONE`, the response kind 0, the state the reset state (R270). -/
def execReset (s : State) : Result := .next s.resetBlock

/-- Consecutive steps, each presenting one byte on the RX port and nothing on the C port (R101, R102). -/
def feedBytes : List Byte → State → Result
  | [], s => .next s
  | b :: bs, s => andThen (runStep execCnop (execRxb b) s) (feedBytes bs)

/-- A step in which nothing is presented (R101, R102). -/
def idleStep (s : State) : Result := runStep execCnop execRxidle s

/-- `POLL`: one step of `RXIDLE` (R102). -/
def execPoll (s : State) : Result := idleStep s

/-- `FEED b0 … b(n-1)`: `n` consecutive steps of `RXB`; `n = 0` is `POLL` (R102, R222). -/
def execFeed (bs : List Byte) (s : State) : Result :=
  match bs with
  | [] => idleStep s
  | b :: rest => feedBytes (b :: rest) s

/-- `MKFRAME`: returns the 17 bytes; a test input is written, the block does nothing (R102). -/
def execMkframe (a : FrameArgs) (s : State) : Result := .next (s.setRet (.bytes (frameBytes (argsPayload a))))

/-- `FEEDFRAME`: `FEED` of the 17 bytes of `MKFRAME` (R102). -/
def execFeedframe (a : FrameArgs) (s : State) : Result := feedBytes (frameBytes (argsPayload a)) s

/-- `FRAME`: the wire frame as the RX byte stream spells it, its 17 bytes in 17 consecutive steps, offset 0 first (R52, R81,
R99: the block gives a window no meaning but through its bytes). -/
def execFrame (p : Payload) (s : State) : Result := feedBytes (frameBytes p) s

end Sys2Proof.Machine
end

