-- ==== Sys2Proof/Machine/StatusMap.lean ====
section
/-! DEFINITION. The meanings of `IMDST`, `VIFCST`, `MCUST`, `GEAR` (spec/43_status_mapping.md R171, R173, R175, R177). -/

namespace Sys2Proof.Machine

/-- `IMDST s`: returns the state, writes nothing of the block (R171). -/
def execImdst (w : Half) (s : State) : Result := .next (s.setRet (.imd (imdst w)))

/-- `VIFCST v`: returns the state, writes nothing of the block (R173). -/
def execVifcst (v : Half) (s : State) : Result := .next (s.setRet (.vifc (vifcst v)))

/-- `MCUST f`: returns the state, writes nothing of the block (R175). -/
def execMcust (f : Half) (s : State) : Result := .next (s.setRet (.mcu (mcust f)))

/-- `GEAR f, mv`: returns the gear, writes nothing of the block (R177). -/
def execGear (f : Half) (mv : Bool) (s : State) : Result := .next (s.setRet (.gear (gear f mv)))

end Sys2Proof.Machine
end

