-- ==== Sys2Proof/Machine/Validator.lean ====
section
/-! DEFINITION. The meanings of the Packet Validator's micro-operations (spec/41_packet_validator.md). They read their operand
only and write no state of the block (R136). -/

namespace Sys2Proof.Machine

/-- `CHECKSUM p` on exactly 14 bytes (R131). -/
def execChecksum (p : List Byte) (s : State) : Result :=
  if p.length = Config.payloadLen then .next (s.setRet (.byte (xorBytes p)))
  else .refused (.malformedOperand "CHECKSUM")

/-- `VALIDATE c` on exactly 17 bytes (R133). -/
def execValidate (c : List Byte) (s : State) : Result :=
  if c.length = Config.frameLen then .next (s.setRet (.verdict (validate c)))
  else .refused (.malformedOperand "VALIDATE")

end Sys2Proof.Machine
end

