-- ==== Sys2Proof/Machine/Dispatch.lean ====
section
/-! DEFINITION. `exec`: one arm per row of spec/opcode_table.json. -/

namespace Sys2Proof.Machine

def exec (i : Instr) (s : State) : Host.Outcome State Fault Refusal :=
  match i with
  | .frame p => Sys2Proof.Machine.execFrame p s
  | .rxidle => Sys2Proof.Machine.execRxidle s
  | .rxb d => Sys2Proof.Machine.execRxb d s
  | .cnop => Sys2Proof.Machine.execCnop s
  | .snap => Sys2Proof.Machine.execSnap s
  | .gerr => Sys2Proof.Machine.execGerr s
  | .glrt => Sys2Proof.Machine.execGlrt s
  | .clr => Sys2Proof.Machine.execClr s
  | .reset => Sys2Proof.Machine.execReset s
  | .append d => Sys2Proof.Machine.execAppend d s
  | .extract => Sys2Proof.Machine.execExtract s
  | .drain => Sys2Proof.Machine.execDrain s
  | .checksum p => Sys2Proof.Machine.execChecksum p s
  | .validate c => Sys2Proof.Machine.execValidate c s
  | .decode c => Sys2Proof.Machine.execDecode c s
  | .imdst w => Sys2Proof.Machine.execImdst w s
  | .vifcst v => Sys2Proof.Machine.execVifcst v s
  | .mcust f => Sys2Proof.Machine.execMcust f s
  | .gear f mv => Sys2Proof.Machine.execGear f mv s
  | .push r => Sys2Proof.Machine.execPush r s
  | .recerr => Sys2Proof.Machine.execRecerr s
  | .touch => Sys2Proof.Machine.execTouch s
  | .feed bs => Sys2Proof.Machine.execFeed bs s
  | .poll => Sys2Proof.Machine.execPoll s
  | .mkframe a => Sys2Proof.Machine.execMkframe a s
  | .feedframe a => Sys2Proof.Machine.execFeedframe a s

end Sys2Proof.Machine
end

