-- ==== Sys2Proof/Machine/Cycle.lean ====
section
/-! DEFINITION. One cycle of the block: what the environment presents, the two ports' operations in their order, the reset
wire over both (spec/45_receiver_loop.md R225 to R227, spec/70_reset_and_hazards.md R270, R271); and where a word of
spec/opcode_table.json is presented. -/

namespace Sys2Proof.Machine

/-- What the environment presents in the next step: its scheduled words, else nothing (R225, R274). -/
def State.nextPins (s : State) : Pins :=
  match s.inbox with
  | p :: _ => p
  | [] => idlePins

/-- The schedule moves on by one step. -/
def State.popInbox (s : State) : State := { s with inbox := s.inbox.tail }

/-- One step with given pins: reset overrides both port words (R227, R270, R271). -/
def stepPins (p : Pins) (s : State) : Result :=
  if p.rst then runStep (exec .reset) (fun t => .next t) s
  else runStep (exec (decodeC p.cWord)) (exec (decodeRx p.rxWord)) s

/-- One step with what the environment presents. -/
def cycle (s : State) : Result := stepPins s.nextPins s.popInbox

/-- Puts a code word where the block fetches it in the very next step: a port word or the reset wire on its port before
everything already scheduled; a wire frame, whose window `EXTRACT` reads from the working buffer, with its first 16 bytes as
the bytes held and its last byte on the RX port (R22, R112; the ghost `n_in` counts the bytes placed). -/
def State.presentCode (s : State) : CodeWord → State
  | .wire f =>
    { s with
      wbuf := (wireBytes f).take 16
      ghost := { s.ghost with nIn := s.ghost.nOut + 16 }
      inbox := ((wireBytes f).drop 16).map bytePins ++ s.inbox }
  | .rx w => { s with inbox := codePins (.rx w) ++ s.inbox }
  | .c w => { s with inbox := codePins (.c w) ++ s.inbox }
  | .rst w => { s with inbox := codePins (.rst w) ++ s.inbox }

/-- Puts a word of spec/opcode_table.json where the block fetches it. A number that is no word of the table changes
nothing. -/
def State.present (s : State) (nbits w : Nat) : State :=
  match tableWord nbits w with
  | some cw => s.presentCode cw
  | none => s

/-- Operations performed one after the other, in one total order (R62). -/
def execAll : List Instr → State → Result
  | [], s => .next s
  | i :: is, s => andThen (exec i s) (execAll is)

end Sys2Proof.Machine
end

