-- ==== Sys2Proof/Machine/Step.lean ====
section
/-! DEFINITION. The step function, and where the next instruction is fetched from. -/

namespace Sys2Proof.Machine

/-- One step of the whole block (R227). -/
def step (s : State) : Host.Outcome State Fault Refusal := cycle s

/-- The word `w` of `nbits` bits where the very next step runs it: on its port, or for a wire frame in the working buffer
with its last byte on the RX port (notes/assumptions/11.md). -/
def State.withFetchWord (s : State) (nbits w : Nat) : State := s.present nbits w

end Sys2Proof.Machine
end

