-- ==== Sys2Proof/Machine/Ports.lean ====
section
/-! DEFINITION. The output ports: the continuous status outputs as functions of the state at the start of a step, and the
event and response outputs of a step as bits (spec/10_state.md R28, R30, R31, R35, R36, spec/60_exceptions.md R241). Bits
the spec leaves unspecified are free values (U3, U4). -/

namespace Sys2Proof.Machine

/-- `rxstate` (R31). -/
def State.rxstate (s : State) : RxState := rxstateOf s.wlen

/-- `error_count_o`, in the step that begins in `s` (R36). -/
def State.errorCountO (s : State) : BitVec Config.errW := s.errorCount

/-- `last_rx_time_o`, in the step that begins in `s` (R36). -/
def State.lastRxTimeO (s : State) : BitVec Config.timeW := s.lastReceiveTime

/-- `hlen_o`, in the step that begins in `s` (R36). -/
def State.hlenO (s : State) : BitVec 4 := BitVec.ofNat 4 s.hlen

/-- `wlen_o`, in the step that begins in `s` (R36). -/
def State.wlenO (s : State) : BitVec 5 := BitVec.ofNat 5 s.wlen

/-- `rxstate_o`, in the step that begins in `s` (R36). -/
def State.rxstateO (s : State) : BitVec 2 := rxstateCode s.rxstate

/-- The packed record on the snapshot bus (R28, decision D14). -/
def packRecord (r : Record) : BitVec Config.recordW :=
  r.motorRpm ++ byteOfInt r.motorTemp ++ byteOfInt r.mcuTemp ++ r.mcuFlags ++ r.mcuFaultLevel
    ++ r.imdIsoResistance ++ r.imdStatusRaw ++ r.vifcStatusRaw ++ imdCode r.imdState ++ vifcCode r.vifcState
    ++ BitVec.ofBool r.motorDataValid ++ BitVec.ofBool r.imdDataValid ++ BitVec.ofBool r.selfTestFailed

/-- The event code (R241, decision D15). -/
def eventCode : Event → BitVec 3
  | .none => 0 | .accept _ => 1 | .errStart => 2 | .errEnd => 3 | .errChk => 4 | .errDecode => 5

/-- `ev_kind` of the latest step (R35). -/
def State.evKind (s : State) : BitVec 3 := eventCode s.event

/-- `ev_record` of the latest step: the record just pushed, or any value (R35, U4). -/
def State.evRecord (s : State) : BitVec Config.recordW :=
  match s.event with
  | .accept r => packRecord r
  | .none => Config.freeEvRecord s.steps
  | .errStart => Config.freeEvRecord s.steps
  | .errEnd => Config.freeEvRecord s.steps
  | .errChk => Config.freeEvRecord s.steps
  | .errDecode => Config.freeEvRecord s.steps

/-- The response code (R36, decision D9). -/
def rspCode : Response → BitVec 2
  | .none => 0 | .snapshot _ => 1 | .errorCount _ => 2 | .lastRxTime _ => 3

/-- `c_rsp_kind` of the latest step (R36). -/
def State.cRspKind (s : State) : BitVec 2 := rspCode s.rsp

/-- `c_rsp_len` of the latest step (R36, U3). -/
def State.cRspLen (s : State) : BitVec 4 :=
  match s.rsp with
  | .snapshot recs => BitVec.ofNat 4 recs.length
  | .none => Config.freeRspLen s.steps
  | .errorCount _ => Config.freeRspLen s.steps
  | .lastRxTime _ => Config.freeRspLen s.steps

/-- `c_rsp_recs[i]` of the latest step (R36, U3). -/
def State.cRspRec (s : State) (i : Fin Config.capacity) : BitVec Config.recordW :=
  match s.rsp with
  | .snapshot recs =>
    match recs[i.val]? with
    | some r => packRecord r
    | none => Config.freeRspRec s.steps i.val
  | .none => Config.freeRspRec s.steps i.val
  | .errorCount _ => Config.freeRspRec s.steps i.val
  | .lastRxTime _ => Config.freeRspRec s.steps i.val

/-- `c_rsp_word` of the latest step, zero-extended if the widths differ (R36, U3, U8). -/
def State.cRspWord (s : State) : BitVec (max Config.errW Config.timeW) :=
  match s.rsp with
  | .errorCount w => w.setWidth (max Config.errW Config.timeW)
  | .lastRxTime w => w.setWidth (max Config.errW Config.timeW)
  | .none => Config.freeRspWord s.steps
  | .snapshot _ => Config.freeRspWord s.steps

end Sys2Proof.Machine
end

