-- ==== Sys2Proof/Safety.lean ====
section
/-! DEFINITION. What counts as a good state, in the terms the statements use: the bounds between operations
(spec/10_state.md R23, R27, spec/44_history_buffer.md R193), records that some payload decodes to (R26), and the accounts of
the ghosts (R33, R121); and the source's receiver loop, which appends a chunk and then drains (R119, R222). -/

namespace Sys2Proof.Machine

/-- Between operations: at most 16 bytes and 10 records are held, and every record is one that a payload decodes to. -/
abbrev State.safe (s : State) : Prop :=
  s.wlen ≤ 16 ∧ s.hlen ≤ 10 ∧ ∀ r ∈ s.hist, r.wf = true

/-- An event of an acceptance. -/
def Event.isAccept : Event → Bool
  | .accept _ => true
  | .none => false
  | .errStart => false
  | .errEnd => false
  | .errChk => false
  | .errDecode => false

/-- An event of a rejection. -/
def Event.isReject : Event → Bool
  | .accept _ => false
  | .none => false
  | .errStart => true
  | .errEnd => true
  | .errChk => true
  | .errDecode => true

/-- The accounts of the ghosts: bytes appended are held, or left singly with one rejection each, or left 17 at a time with
one acceptance each; `error_count` is the number of rejections up to its greatest value (R33, R121, R200). -/
abbrev State.accounted (s : State) : Prop :=
  s.ghost.nIn = s.wlen + s.ghost.nOut ∧
  s.ghost.nOut = 17 * s.ghost.nAcc + s.ghost.nErr ∧
  s.errorCount.toNat = min s.ghost.nErr 4294967295 ∧
  s.ghost.nAcc = s.ghost.events.countP Event.isAccept ∧
  s.ghost.nErr = s.ghost.events.countP Event.isReject

/-- The source's receiver loop on a buffer without a bound: for each chunk in turn, append it whole, then `DRAIN`
(R110, R119, R222). -/
def receiveChunks : List (List Byte) → State → Result
  | [], s => .next s
  | c :: cs, s =>
    andThen (exec .drain { s with wbuf := s.wbuf ++ c, ghost := { s.ghost with nIn := s.ghost.nIn + c.length } })
      (receiveChunks cs)

end Sys2Proof.Machine
end

