-- ==== Sys2Proof/Certificates/Slice0/Obligations.lean ====
section
/-! DEFINITION. The statements for the provers, from the numbered rules of spec/. -/

open Sys2Proof Sys2Proof.Machine

/-- In State.reset: wlen is 0 and rxstate is AwaitingData, hlen is 0, error_count and last_receive_time are 0, the four
ghosts are 0, ev_kind and c_rsp_kind are 0, and no working-buffer cell and no history slot can be read. The values are
the spec's decision D8. Formalises R42. -/
def Obligations.ResetLeavesTheResetState : Prop :=
  State.reset.wlen = 0 ∧ State.reset.rxstate = .awaitingData ∧ State.reset.hlen = 0 ∧
  State.reset.errorCount = 0#32 ∧ State.reset.lastReceiveTime = 0#32 ∧
  State.reset.ghost.nIn = 0 ∧ State.reset.ghost.nOut = 0 ∧ State.reset.ghost.nAcc = 0 ∧ State.reset.ghost.nErr = 0 ∧
  State.reset.evKind = 0#3 ∧ State.reset.cRspKind = 0#2 ∧
  (∀ i : Nat, State.reset.readCell i = none) ∧ (∀ i : Nat, State.reset.readSlot i = none)

/-- In a step whose pins have rst = 1, whatever the two port words are, and likewise for exec RESET, the answer is a next
state with no byte and no record held, rxstate AwaitingData, error_count, last_receive_time and the four ghosts 0, the
event EV_NONE and the response kind 0: no byte is appended, no response given. Formalises R270, R271. -/
def Obligations.ResetOverridesBothPorts : Prop :=
  (∀ (s : State) (p : Pins) (rest : List Pins), s.inbox = p :: rest → p.rst = true → ∃ t : State,
    step s = .next t ∧ t.wbuf = [] ∧ t.hist = [] ∧ t.rxstate = .awaitingData ∧ t.errorCount = 0#32 ∧
    t.lastReceiveTime = 0#32 ∧ t.ghost.nIn = 0 ∧ t.ghost.nOut = 0 ∧ t.ghost.nAcc = 0 ∧ t.ghost.nErr = 0 ∧
    t.event = .none ∧ t.evKind = 0#3 ∧ t.rsp = .none ∧ t.cRspKind = 0#2) ∧
  (∀ s : State, ∃ t : State,
    exec .reset s = .next t ∧ t.wbuf = [] ∧ t.hist = [] ∧ t.rxstate = .awaitingData ∧ t.errorCount = 0#32 ∧
    t.lastReceiveTime = 0#32 ∧ t.ghost.nIn = 0 ∧ t.ghost.nOut = 0 ∧ t.ghost.nAcc = 0 ∧ t.ghost.nErr = 0 ∧
    t.event = .none ∧ t.evKind = 0#3 ∧ t.rsp = .none ∧ t.cRspKind = 0#2)

/-- In a step with rst = 0 the event and response are first cleared, then exec of the operation the C word decodes to
runs, then exec of the operation the RX word decodes to, on the state the first leaves; then the schedule of now moves
on and the step count grows by one. If the RX operation faults, the step answers that fault; that there is a fault at
all is the model's choice (assumption log 13). With nothing scheduled the step runs CNOP and RXIDLE, the model's
choice for an empty schedule (assumption log 1). The order is the spec's decision D10. Rests on 45_receiver_loop.md
section 5 and 6 (R226, R227). -/
def Obligations.StepRunsTheDecodedOperations : Prop :=
  (∀ (s : State) (p : Pins) (rest : List Pins) (t u : State), s.inbox = p :: rest → p.rst = false →
    exec (decodeC p.cWord) { s with inbox := rest, event := .none, rsp := .none } = .next t →
    exec (decodeRx p.rxWord) t = .next u →
    step s = .next { u with times := u.times.tail, steps := u.steps + 1 }) ∧
  (∀ (s : State) (p : Pins) (rest : List Pins) (t : State) (f : Fault), s.inbox = p :: rest → p.rst = false →
    exec (decodeC p.cWord) { s with inbox := rest, event := .none, rsp := .none } = .next t →
    exec (decodeRx p.rxWord) t = .fault f → step s = .fault f) ∧
  (∀ s : State, s.inbox = [] →
    step s = .next { s with event := .none, rsp := .none, times := s.times.tail, steps := s.steps + 1 })

/-- For every RX word and every C word: if exec of the operation it decodes to, on the state with the outputs cleared,
answers a next state t, then the step after withFetchWord answers t with the event as an idle RX port leaves it (for a
C word, EV_NONE), now moved on and the step count one more. The word 1 of one bit runs RESET, which leaves the
schedules and the step count (assumption log 20). For the word of every wire frame, the step accepts that frame: the
buffer is empty, its record the newest of the history, the event EV_ACCEPT of it. withFetchWord, the widths and the
place of a frame (16 bytes held, the last on the RX port) are the model's (assumption log 10 and 11). Rests on
30_encoding.md section 1.2 and 1.3 (R84, R85, R86). -/
def Obligations.PresentedWordRunsInTheNextStep : Prop :=
  (∀ (s : State) (w : BitVec 9) (t : State),
    exec (decodeRx w) { s with event := .none, rsp := .none } = .next t →
    step (s.withFetchWord 9 w.toNat) = .next { t with times := t.times.tail, steps := t.steps + 1 }) ∧
  (∀ (s : State) (w : BitVec 3) (t : State),
    exec (decodeC w) { s with event := .none, rsp := .none } = .next t →
    step (s.withFetchWord 3 w.toNat) = .next { t with event := .none, times := t.times.tail, steps := t.steps + 1 }) ∧
  (∀ s : State, step (s.withFetchWord 1 1) =
    .next { State.reset with inbox := s.inbox, times := s.times.tail, steps := s.steps + 1 }) ∧
  (∀ (s : State) (p : Payload), ∃ t : State,
    step (s.withFetchWord 136 (encodeWire p).toNat) = .next t ∧ t.wbuf = [] ∧
    t.event = .accept (decodeRecord (frameBytes p)) ∧ t.inbox = s.inbox ∧ t.errorCount = s.errorCount ∧
    t.hist = (if s.hist.length = 10 then s.hist.tail else s.hist) ++ [decodeRecord (frameBytes p)])

/-- For every state with at most 16 bytes in the working buffer, whatever the environment presents, step answers a next
state, and wlen is again at most 16 in it. Rests on 45_receiver_loop.md section 6 (R227), 60_exceptions.md section 1
(R242), 70_reset_and_hazards.md section 3 (R283). -/
def Obligations.StepAlwaysAnswersANextState : Prop :=
  ∀ s : State, s.wlen ≤ 16 → ∃ t : State, step s = .next t ∧ t.wlen ≤ 16

/-- For every well-formed operation, external, internal, pure or pseudo, and every state with wlen <= 16, exec answers a
next state. Rests on 45_receiver_loop.md section 2 (R219), 60_exceptions.md section 1 (R242), 44_history_buffer.md
section 1 (R190). -/
def Obligations.EveryOperationCompletes : Prop :=
  ∀ (i : Instr) (s : State), i.wf = true → s.wlen ≤ 16 → ∃ t : State, exec i s = .next t

/-- For every state in which at most 16 bytes and at most 10 records are held and every held record has signed 8-bit
temperatures and the status values of its own raw words: if step answers a next state, the same holds there. The
bounds are inferences the spec marks as derived (R23, R118, R193). Rests on 10_state.md section 2 and 3 (R23, R26),
44_history_buffer.md section 2 (R193), 40_frame_assembler.md section 4 (R118). -/
def Obligations.StepKeepsTheStateSafe : Prop :=
  ∀ s t : State, s.safe → step s = .next t → t.safe

/-- State.reset is safe (the bounds and records of StepKeepsTheStateSafe) and accounted (the equations of
StepKeepsTheAccounts). Its values are those of ResetLeavesTheResetState; the past events, none, are the model's
(assumption log 16). Rests on 10_state.md section 7 and 11 (R33, R42), 10_state.md section 2 (R23). -/
def Obligations.ResetStateMeetsBothInvariants : Prop :=
  State.reset.safe ∧ State.reset.accounted

/-- For every state whose ghosts are accounted: bytes in are bytes held plus bytes out, bytes out are 17 per acceptance
and 1 per rejection, error_count is the number of rejections up to ERR_MAX, and the past events hold exactly n_acc
acceptances and n_err rejections. If step answers a next state, the same holds there. The accounts are an inference
the spec marks as derived (R33, R121). Rests on 40_frame_assembler.md section 6 (R121), 10_state.md section 7 (R33),
44_history_buffer.md section 5 (R200). -/
def Obligations.StepKeepsTheAccounts : Prop :=
  ∀ s t : State, s.accounted → step s = .next t → t.accounted

/-- The decoder reads every 9-bit RX word and every 3-bit C word as the tables of R84 and R85 say, and no such word is
rejected. Formalises R84, R85. -/
def Obligations.PortWordsDecodeByTheirTables : Prop :=
  (∀ x : BitVec 8, decode (.rx (0#1 ++ x)) = .ok .rxidle) ∧
  (∀ d : BitVec 8, decode (.rx (1#1 ++ d)) = .ok (.rxb d)) ∧
  (∀ x : BitVec 2, decode (.c (0#1 ++ x)) = .ok .cnop) ∧
  decode (.c 0b100#3) = .ok .snap ∧ decode (.c 0b101#3) = .ok .gerr ∧
  decode (.c 0b110#3) = .ok .glrt ∧ decode (.c 0b111#3) = .ok .clr

/-- The example frame as a 136-bit word decodes to its nine payload fields; the same with a wrong start marker, end marker
or checksum is rejected under that name; RXB 0xAA, GLRT and RESET decode from their words, also by the table's
numbers. The widths of 16 and 8 bits at which decodeTableWord reads 0x1AA, 6 and 1, and the three names of a rejected
frame word, are the model's choice (assumption log 10). Rests on 95_test_vectors.md section 1 and 3 (V-X1, V-V3,
V-V4), 30_encoding.md section 1 (R82, R83). -/
def Obligations.SomeWordsOfTheTableDecode : Prop :=
  decode (.wire 0xAA04B0191E0008002EE000000000037655#136) =
    .ok (.frame { motorRpm := 1200#16, motorTemp := 0x19#8, mcuTemp := 0x1E#8, mcuFlags := 0x0008#16,
                  mcuFaultLevel := 0#8, imdIsoResistance := 12000#16, imdStatusRaw := 0#16, vifcStatusRaw := 0#16,
                  validity := 3#8 }) ∧
  decode (.wire 0x5504B0191E0008002EE000000000037655#136) = .error .startMarker ∧
  decode (.wire 0xAA04B0191E0008002EE000000000037654#136) = .error .endMarker ∧
  decode (.wire 0xAA04B0191E0008002EE000000000037755#136) = .error .checksum ∧
  decode (.rx 0b110101010#9) = .ok (.rxb 0xAA#8) ∧ decode (.rst 1#1) = .ok .reset ∧
  decodeTableWord 16 0x1AA = some (.rxb 0xAA#8) ∧ decodeTableWord 8 6 = some .glrt ∧
  decodeTableWord 8 1 = some .reset

/-- For every well-formed operation that has an encoding (the frame with any payload, and the words of the RX, C and RST
formats), the decoder reads the encoded word as exactly that operation; and the operations that have an encoding are
exactly the nine rows with a format. Rests on 30_encoding.md section 1 (R80 to R85), 30_encoding.md section 2 (R87). -/
def Obligations.DecodeOfEncodeIsTheInstruction : Prop :=
  (∀ (i : Instr) (w : CodeWord), i.wf = true → encode i = some w → decode w = .ok i) ∧
  (∀ i : Instr, (∃ w, encode i = some w) ↔
    ((∃ p, i = .frame p) ∨ i = .rxidle ∨ (∃ d, i = .rxb d) ∨ i = .cnop ∨ i = .snap ∨ i = .gerr ∨ i = .glrt ∨
      i = .clr ∨ i = .reset))

/-- For every 136-bit word that decodes to an operation, encoding that operation gives the word back. Rests on
30_encoding.md section 1.1 (R82, R83). -/
def Obligations.EncodeOfDecodedFrameIsTheWord : Prop :=
  ∀ (f : BitVec 136) (i : Instr), decode (.wire f) = .ok i → encode i = some (.wire f)

/-- For every 17-byte window: VALIDATE accepts it exactly if the mask, match and checksum constraint decode it, and then
its bytes are those of the decoded frame; the verdicts V_REJ_START, V_REJ_END, V_REJ_CHK go with the three named
rejections. That the decoder names the first failing check, in VALIDATE's order, is the model's choice (assumption log
10). Rests on 30_encoding.md section 1.1 (R83), 41_packet_validator.md section 3 (R133). -/
def Obligations.FrameDecoderAgreesWithTheValidator : Prop :=
  ∀ c : List Byte, c.length = 17 →
    (validate c = .accept ↔ ∃ p, decodeWindow c = .ok (.frame p) ∧ frameBytes p = c) ∧
    (validate c = .rejStart ↔ decodeWindow c = .error .startMarker) ∧
    (validate c = .rejEnd ↔ decodeWindow c = .error .endMarker) ∧
    (validate c = .rejChk ↔ decodeWindow c = .error .checksum)

/-- Whatever word the decoder accepts, the operation it answers is one that has an encoding. Rests on 30_encoding.md
section 1 (R80), 44_history_buffer.md section 8 (R205). -/
def Obligations.NoWordSelectsAMicroOperation : Prop :=
  ∀ (w : CodeWord) (i : Instr), decode w = .ok i → ∃ v, encode i = some v

/-- For every state with at most 15 bytes held and every byte d, exec (RXB d) answers the next state in which d stands
behind the bytes held, the event is EV_NONE, the ghost n_in is one more, and nothing else changes. Rests on
40_frame_assembler.md section 3 (R112 step 1, R113), 45_receiver_loop.md section 2 (R216). -/
def Obligations.RxbHoldsAShortBuffer : Prop :=
  ∀ (s : State) (d : Byte), s.wlen ≤ 15 →
    exec (.rxb d) s =
      .next { s with wbuf := s.wbuf ++ [d], event := .none, ghost := { s.ghost with nIn := s.ghost.nIn + 1 } }

/-- For every state holding a byte h other than 0xAA and 15 more bytes, exec (RXB d) answers the next state in which h is
gone and d stands last, error_count is one more (staying at 2^32 - 1), the event is EV_ERR_START, the ghosts follow,
and nothing else changes. Counting is COUNT_START_MISS = 1 (decision D7). Formalises R243. -/
def Obligations.RxbDropsAHeadThatIsNoStartMarker : Prop :=
  ∀ (s : State) (d h : Byte) (rest : List Byte), s.wbuf = h :: rest → rest.length = 15 → h ≠ 0xAA#8 →
    ∃ e : BitVec 32, e.toNat = min (s.errorCount.toNat + 1) 4294967295 ∧
      exec (.rxb d) s =
        .next { s with
          wbuf := rest ++ [d], errorCount := e, event := .errStart,
          ghost := { nIn := s.ghost.nIn + 1, nOut := s.ghost.nOut + 1, nAcc := s.ghost.nAcc, nErr := s.ghost.nErr + 1, events := s.ghost.events ++ [.errStart] } }

/-- For every state holding 0xAA and 15 more bytes and every byte d other than 0x55, exec (RXB d) answers the next state
in which the 0xAA is gone and d stands last, error_count is one more (saturating), the event is EV_ERR_END, the ghosts
follow, and nothing else changes. Formalises R244. -/
def Obligations.RxbRejectsAWrongEndMarker : Prop :=
  ∀ (s : State) (d : Byte) (rest : List Byte), s.wbuf = 0xAA#8 :: rest → rest.length = 15 → d ≠ 0x55#8 →
    ∃ e : BitVec 32, e.toNat = min (s.errorCount.toNat + 1) 4294967295 ∧
      exec (.rxb d) s =
        .next { s with
          wbuf := rest ++ [d], errorCount := e, event := .errEnd,
          ghost := { nIn := s.ghost.nIn + 1, nOut := s.ghost.nOut + 1, nAcc := s.ghost.nAcc, nErr := s.ghost.nErr + 1, events := s.ghost.events ++ [.errEnd] } }

/-- For every state holding 0xAA, 14 payload bytes and a byte k other than their exclusive or, exec (RXB 0x55) answers the
next state in which the 0xAA is gone and 0x55 stands last, error_count is one more (saturating), the event is
EV_ERR_CHK, the ghosts follow, and nothing else changes. Formalises R245. -/
def Obligations.RxbRejectsAWrongChecksum : Prop :=
  ∀ (s : State) (p : List Byte) (k : Byte), s.wbuf = 0xAA#8 :: (p ++ [k]) → p.length = 14 → k ≠ xorBytes p →
    ∃ e : BitVec 32, e.toNat = min (s.errorCount.toNat + 1) 4294967295 ∧
      exec (.rxb 0x55#8) s =
        .next { s with
          wbuf := p ++ [k, 0x55#8], errorCount := e, event := .errChk,
          ghost := { nIn := s.ghost.nIn + 1, nOut := s.ghost.nOut + 1, nAcc := s.ghost.nAcc, nErr := s.ghost.nErr + 1, events := s.ghost.events ++ [.errChk] } }

/-- For every state holding 0xAA, 14 payload bytes p and their exclusive or, exec (RXB 0x55) answers the next state in
which the buffer is empty, the record DECODE gives for the 17 bytes is the newest of the history (the oldest gone if
ten were held), last_receive_time is now, the event is EV_ACCEPT with that record, the ghosts follow, and nothing else
changes. Rests on 40_frame_assembler.md section 3 (R112 step 4), 45_receiver_loop.md section 3 and 4 (R220, R223),
44_history_buffer.md section 2 and 6 (R191, R201). -/
def Obligations.RxbAcceptsAValidFrame : Prop :=
  ∀ (s : State) (p : List Byte), s.wbuf = 0xAA#8 :: (p ++ [xorBytes p]) → p.length = 14 →
    let r := decodeRecord (0xAA#8 :: (p ++ [xorBytes p, 0x55#8]))
    exec (.rxb 0x55#8) s =
      .next { s with
        wbuf := [], hist := (if s.hist.length = 10 then s.hist.tail else s.hist) ++ [r],
        lastReceiveTime := s.now, event := .accept r,
        ghost := { nIn := s.ghost.nIn + 1, nOut := s.ghost.nOut + 17, nAcc := s.ghost.nAcc + 1, nErr := s.ghost.nErr, events := s.ghost.events ++ [.accept r] } }

/-- rxstate and its code on rxstate_o (decision D15) are AwaitingData, 0 at wlen 0, Assembling, 1 at 1 to 16, Validating,
2 at 17; no step from wlen <= 16 leaves Validating. Every step with wlen <= 16 and rst = 0 answers a next state, where
h is the history after the C word (empty for CLR; decision D10), d the byte, c the bytes held and d: with no byte
presented all is unchanged and the event EV_NONE; with a byte at wlen 0 to 15, c is held, Assembling, EV_NONE, and
nothing else moves; at wlen 16 with c rejected, c without its head is held, Assembling, the event the first failing
check's, error_count one more (saturating, D6, D7); at wlen 16 with c accepted, the buffer is empty, AwaitingData,
EV_ACCEPT of the decoded record, which is pushed on h, and last_receive_time is now. Rests on 45_receiver_loop.md
section 2 (R216, R217, R218), 10_state.md section 5 (R31). -/
def Obligations.RxStateMovesByTheTable : Prop :=
  (∀ s : State,
    (s.wlen = 0 → s.rxstate = .awaitingData ∧ s.rxstateO = 0#2) ∧
    (1 ≤ s.wlen ∧ s.wlen ≤ 16 → s.rxstate = .assembling ∧ s.rxstateO = 1#2) ∧
    (s.wlen = 17 → s.rxstate = .validating ∧ s.rxstateO = 2#2)) ∧
  (∀ s t : State, s.wlen ≤ 16 → step s = .next t → t.rxstate ≠ .validating) ∧
  (∀ (s : State) (p : Pins) (rest : List Pins), s.wlen ≤ 16 → s.inbox = p :: rest → p.rst = false → ∃ t : State,
    step s = .next t ∧
    let d : Byte := p.rxWord.extractLsb' 0 8
    let c : List Byte := s.wbuf ++ [d]
    let h : List Record := if p.cWord = 0b111#3 then [] else s.hist
    (p.rxWord.getLsbD 8 = false →
      t.wbuf = s.wbuf ∧ t.rxstate = s.rxstate ∧ t.event = .none ∧ t.hist = h ∧ t.errorCount = s.errorCount ∧
      t.lastReceiveTime = s.lastReceiveTime) ∧
    (p.rxWord.getLsbD 8 = true → s.wlen ≤ 15 →
      t.wbuf = c ∧ t.wlen = s.wlen + 1 ∧ t.rxstate = .assembling ∧ t.event = .none ∧ t.hist = h ∧
      t.errorCount = s.errorCount ∧ t.lastReceiveTime = s.lastReceiveTime) ∧
    (p.rxWord.getLsbD 8 = true → s.wlen = 16 → validate c ≠ .accept →
      t.wbuf = c.drop 1 ∧ t.wlen = 16 ∧ t.rxstate = .assembling ∧
      t.event = (if s.wbuf.head? ≠ some 0xAA#8 then .errStart else if d ≠ 0x55#8 then .errEnd else .errChk) ∧
      t.hist = h ∧ t.errorCount.toNat = min (s.errorCount.toNat + 1) 4294967295 ∧
      t.lastReceiveTime = s.lastReceiveTime) ∧
    (p.rxWord.getLsbD 8 = true → s.wlen = 16 → validate c = .accept →
      t.wbuf = [] ∧ t.rxstate = .awaitingData ∧ t.event = .accept (decodeRecord c) ∧
      t.hist = (if h.length = 10 then h.tail else h) ++ [decodeRecord c] ∧ t.errorCount = s.errorCount ∧
      t.lastReceiveTime = s.now))

/-- exec RXIDLE answers the state with the event EV_NONE, exec CNOP the state with no response, exec POLL the state with
both, now moved on and the step count one more; FEED of no byte is POLL. Rests on 45_receiver_loop.md section 3
(R221), 44_history_buffer.md section 7 (R204), 30_encoding.md section 6 (R102). -/
def Obligations.IdleOperationsChangeNothing : Prop :=
  ∀ s : State,
    exec .rxidle s = .next { s with event := .none } ∧
    exec .cnop s = .next { s with rsp := .none } ∧
    exec .poll s = .next { s with event := .none, rsp := .none, times := s.times.tail, steps := s.steps + 1 } ∧
    exec (.feed []) s = exec .poll s

/-- For wlen <= 16 exec (APPEND d) answers the next state with d behind the bytes held and n_in one more, nothing else
changed; reading cell wlen then gives d and every cell below reads as before. For wlen >= 17 it faults (R111 requires
wlen <= 16; that it is a fault is assumption log 13). Rests on 40_frame_assembler.md section 2 (R111), 10_state.md
section 2 (R21). -/
def Obligations.AppendPutsTheByteBehind : Prop :=
  ∀ (s : State) (d : Byte),
    (s.wlen ≤ 16 → ∃ t : State,
      exec (.append d) s = .next t ∧
      t = { s with wbuf := s.wbuf ++ [d], ghost := { s.ghost with nIn := s.ghost.nIn + 1 } } ∧
      t.readCell s.wlen = some d ∧ (∀ k, k < s.wlen → t.readCell k = s.readCell k)) ∧
    (17 ≤ s.wlen → exec (.append d) s = .fault .appendWithoutRoom)

/-- For every state: below 17 bytes EXTRACT emits EV_NONE and returns WAIT, changing nothing else. With 17 bytes or more,
let v be VALIDATE of the first 17: on a rejection it returns DROPPED, emits the event of the first failing check,
counts once (saturating) and removes exactly one byte; on acceptance it returns ACCEPTED, pushes the decoded record,
stamps now and removes exactly 17 bytes; the rest of the state is unchanged. Rests on 40_frame_assembler.md section 3
(R112), 41_packet_validator.md section 3 (R133, R134). -/
def Obligations.ExtractMakesOnePass : Prop :=
  ∀ s : State,
    (s.wlen < 17 → exec .extract s = .next { s with event := .none, ret := .pass .wait }) ∧
    (17 ≤ s.wlen → ∀ ev : Event,
      (validate (s.wbuf.take 17) = .rejStart ∧ ev = .errStart ∨ validate (s.wbuf.take 17) = .rejEnd ∧ ev = .errEnd ∨
        validate (s.wbuf.take 17) = .rejChk ∧ ev = .errChk) →
      ∃ e : BitVec 32, e.toNat = min (s.errorCount.toNat + 1) 4294967295 ∧
        exec .extract s =
          .next { s with
            wbuf := s.wbuf.drop 1, errorCount := e, event := ev, ret := .pass .dropped,
            ghost := { nIn := s.ghost.nIn, nOut := s.ghost.nOut + 1, nAcc := s.ghost.nAcc, nErr := s.ghost.nErr + 1, events := s.ghost.events ++ [ev] } }) ∧
    (17 ≤ s.wlen → validate (s.wbuf.take 17) = .accept →
      let r := decodeRecord (s.wbuf.take 17)
      exec .extract s =
        .next { s with
          wbuf := s.wbuf.drop 17, hist := (if s.hist.length = 10 then s.hist.tail else s.hist) ++ [r],
          lastReceiveTime := s.now, event := .accept r, ret := .pass .accepted,
          ghost := { nIn := s.ghost.nIn, nOut := s.ghost.nOut + 17, nAcc := s.ghost.nAcc + 1, nErr := s.ghost.nErr, events := s.ghost.events ++ [.accept r] } })

/-- For every state, with a buffer of any length, exec DRAIN answers a next state with wlen <= 16 and event EV_NONE whose
buffer is the end of the old one, the removed bytes being counted in n_out; n_in, the response, the returned value,
the schedules and the step count are unchanged. That the event after DRAIN is EV_NONE is deduced: its last pass waits,
and a waiting pass emits it (assumption log 15). Rests on 40_frame_assembler.md section 5 (R119),
40_frame_assembler.md section 3 (R112 step 1). -/
def Obligations.DrainStopsBelowSeventeenBytes : Prop :=
  ∀ s : State, ∃ t : State,
    exec .drain s = .next t ∧ t.wlen ≤ 16 ∧ t.event = .none ∧
    (∃ gone : List Byte, s.wbuf = gone ++ t.wbuf ∧ t.ghost.nOut = s.ghost.nOut + gone.length) ∧
    t.ghost.nIn = s.ghost.nIn ∧ t.rsp = s.rsp ∧ t.ret = s.ret ∧ t.inbox = s.inbox ∧ t.times = s.times ∧
    t.steps = s.steps

/-- For every state with wlen <= 16 and every byte d, there are states a and t with exec (APPEND d) answering a, exec (RXB
d) answering t, and exec DRAIN on a answering t with the event EV_NONE. That the two are equal is an inference the
spec marks as derived; the EV_NONE in which DRAIN differs is the model's deduction (assumption log 15). Rests on
40_frame_assembler.md section 5 (R119), 40_frame_assembler.md section 4 (R118), 40_frame_assembler.md section 3 (R112
step 1). -/
def Obligations.RxbIsAppendThenDrain : Prop :=
  ∀ (s : State) (d : Byte), s.wlen ≤ 16 → ∃ a t : State,
    exec (.append d) s = .next a ∧ exec (.rxb d) s = .next t ∧ exec .drain a = .next { t with event := .none }

/-- For every state with wlen <= 16 and every list of chunks of any sizes: FEED of all their bytes one per step, and the
source's loop (append a whole chunk to a buffer without a bound, then DRAIN, chunk after chunk), both complete and
leave the same working buffer, the same history, the same error_count and the same ghosts, the sequence of past events
included. Rests on 40_frame_assembler.md section 5 (R119), 45_receiver_loop.md section 4 (R222), 95_test_vectors.md
section 1 (V-X2). -/
def Obligations.ChunkingDoesNotMatter : Prop :=
  ∀ (s : State) (cs : List (List Byte)), s.wlen ≤ 16 → ∃ t u : State,
    exec (.feed cs.flatten) s = .next t ∧ receiveChunks cs s = .next u ∧
    t.wbuf = u.wbuf ∧ t.hist = u.hist ∧ t.errorCount = u.errorCount ∧ t.ghost = u.ghost

/-- For every state and every non-empty byte list: running the machine as many steps as there are bytes, with those bytes
scheduled on the RX port, answers exactly what exec (FEED ...) answers. Rests on 30_encoding.md section 6 (R101,
R102), 45_receiver_loop.md section 4 (R222). -/
def Obligations.FeedIsConsecutiveSteps : Prop :=
  ∀ (s : State) (bs : List Byte), bs ≠ [] →
    Host.Core.run Sys2Proof.core bs.length
      { s with inbox := bs.map (fun b => { rst := false, cWord := 0b000#3, rxWord := 1#1 ++ b }) ++ s.inbox } =
    exec (.feed bs) s

/-- For all arguments exec MKFRAME answers the state with the returned value set to the 17 bytes of R102, temperatures
encoded modulo 256. Rests on 30_encoding.md section 6 (R102), 30_encoding.md section 1.1 (R81). -/
def Obligations.MkframeWritesTheSeventeenBytes : Prop :=
  ∀ (s : State) (a : FrameArgs),
    let p : List Byte := [a.rpm.extractLsb' 8 8, a.rpm.extractLsb' 0 8, BitVec.ofInt 8 a.mt, BitVec.ofInt 8 a.ct,
      a.flags.extractLsb' 8 8, a.flags.extractLsb' 0 8, a.fault, a.iso.extractLsb' 8 8, a.iso.extractLsb' 0 8,
      a.imd.extractLsb' 8 8, a.imd.extractLsb' 0 8, a.vifc.extractLsb' 8 8, a.vifc.extractLsb' 0 8, a.val]
    exec (.mkframe a) s = .next { s with ret := .bytes (0xAA#8 :: (p ++ [xorBytes p, 0x55#8])) }

/-- For all arguments with temperatures in -128..127 there are bytes c and a record r: MKFRAME returns c, VALIDATE of c
returns V_ACCEPT, DECODE of c returns r, and r's numeric fields are the arguments, its booleans bits 0, 1 and 7 of the
validity byte, its status values those of the two status words. Two's complement is general knowledge (G1, assumption
log 12). Rests on 30_encoding.md section 6 (R102), 42_telemetry_decoder.md section 1 (R145). -/
def Obligations.DecodeUndoesMkframe : Prop :=
  ∀ (s : State) (a : FrameArgs), a.wf = true → ∃ (c : List Byte) (r : Record),
    exec (.mkframe a) s = .next { s with ret := .bytes c } ∧
    exec (.validate c) s = .next { s with ret := .verdict .accept } ∧
    exec (.decode c) s = .next { s with ret := .record r } ∧
    r.motorRpm = a.rpm ∧ r.motorTemp = a.mt ∧ r.mcuTemp = a.ct ∧ r.mcuFlags = a.flags ∧ r.mcuFaultLevel = a.fault ∧
    r.imdIsoResistance = a.iso ∧ r.imdStatusRaw = a.imd ∧ r.vifcStatusRaw = a.vifc ∧
    r.imdDataValid = a.val.getLsbD 0 ∧ r.motorDataValid = a.val.getLsbD 1 ∧ r.selfTestFailed = a.val.getLsbD 7 ∧
    r.imdState = imdst a.imd ∧ r.vifcState = vifcst a.vifc

/-- For every state: exec FEEDFRAME equals exec FEED of the bytes MKFRAME returns, exec FRAME equals exec FEED of the
markers, payload and checksum bytes. With wlen <= 16 FEED of any bytes, and so both, answers a next state with wlen <=
16. That FRAME runs as its byte stream is the model's reading (assumption log 8). Rests on 30_encoding.md section 6
(R102), 20_memory.md section 2 (R52). -/
def Obligations.FrameOperationsFeedTheirBytes : Prop :=
  ∀ s : State,
    (∀ (a : FrameArgs) (c : List Byte), exec (.mkframe a) s = .next { s with ret := .bytes c } →
      exec (.feedframe a) s = exec (.feed c) s) ∧
    (∀ p : Payload, exec (.frame p) s = exec (.feed (frameBytes p)) s) ∧
    (∀ bs : List Byte, s.wlen ≤ 16 → ∃ t : State, exec (.feed bs) s = .next t ∧ t.wlen ≤ 16)

/-- For every state whose buffer holds at most 16 bytes, none of them 0xAA, and every payload: exec FRAME answers a next
state with an empty buffer, the frame's record newest in the history (the oldest gone if ten were held), the event
EV_ACCEPT of it, error_count grown by the number of held bytes (saturating), n_acc one more, n_err grown by the held
bytes, last_receive_time the value of now in the seventeenth step. An inference the spec marks as derived; it holds
whatever the payload. Rests on 70_reset_and_hazards.md section 3 (R291), 40_frame_assembler.md section 6 (R122). -/
def Obligations.FrameBehindGarbageIsAccepted : Prop :=
  ∀ (s : State) (p : Payload), s.wlen ≤ 16 → (∀ b ∈ s.wbuf, b ≠ 0xAA#8) → ∃ t : State,
    exec (.frame p) s = .next t ∧ t.wbuf = [] ∧
    t.hist = (if s.hist.length = 10 then s.hist.tail else s.hist) ++ [decodeRecord (frameBytes p)] ∧
    t.event = .accept (decodeRecord (frameBytes p)) ∧
    t.errorCount.toNat = min (s.errorCount.toNat + s.wlen) 4294967295 ∧
    t.ghost.nAcc = s.ghost.nAcc + 1 ∧ t.ghost.nErr = s.ghost.nErr + s.wlen ∧
    t.lastReceiveTime = (match s.times.drop 16 with
      | x :: _ => x
      | [] => Config.freeNow (s.steps + 16)) ∧
    t.inbox = s.inbox ∧ t.ret = s.ret ∧ t.rsp = .none ∧ t.times = s.times.drop 17 ∧ t.steps = s.steps + 17

/-- For every state with an empty buffer and at most ten records, and every list of payloads: FEED of their frames one
after another answers a next state with an empty buffer, error_count unchanged, n_acc grown by their number, and as
history the last ten of the old records followed by the decoded ones in order. Rests on 95_test_vectors.md section 2
(V-A14), 44_history_buffer.md section 2 (R192), 20_memory.md section 7 (R63). -/
def Obligations.BackToBackFramesAreAllAccepted : Prop :=
  ∀ (s : State) (ps : List Payload), s.wbuf = [] → s.hist.length ≤ 10 → ∃ t : State,
    exec (.feed (ps.flatMap frameBytes)) s = .next t ∧ t.wbuf = [] ∧ t.errorCount = s.errorCount ∧
    t.ghost.nAcc = s.ghost.nAcc + ps.length ∧ t.ghost.nErr = s.ghost.nErr ∧
    t.hist = (s.hist ++ ps.map (fun p => decodeRecord (frameBytes p))).drop (s.hist.length + ps.length - 10)

/-- From every state with an empty buffer: take a frame with one byte changed at any of the offsets 0 to 16, and any valid
frame behind it, such that none of the sixteen windows that begin at a later byte of the changed frame passes VALIDATE
(the premise of R123). FEED of the two answers a next state with an empty buffer in which only the second frame's
record was added, error_count is 17 more (saturating), n_err 17 more, n_acc one more; the past events grew by the
rejection of the changed offset (start marker at 0, end marker at 16, checksum at 1 to 15), sixteen further
rejections, the acceptance. An inference the spec marks as derived; the ghosts are the model's fields (assumption log
16). Offsets 1 to 14 are the payload; 0, 15 and 16 are covered alike. Rests on 40_frame_assembler.md section 6 (R123),
44_history_buffer.md section 5 (R200), 95_test_vectors.md section 2 (V-A4, V-A5, V-A6, V-A7). -/
def Obligations.OneCorruptedPayloadByteLosesOneFrame : Prop :=
  ∀ (s : State) (p q : Payload) (j : Nat) (b : Byte), s.wbuf = [] → j ≤ 16 → (frameBytes p)[j]? ≠ some b →
    (∀ i, 1 ≤ i → i ≤ 16 →
      validate ((((frameBytes p).set j b ++ frameBytes q).drop i).take 17) ≠ .accept) → ∃ (t : State) (mid : List Event),
      exec (.feed ((frameBytes p).set j b ++ frameBytes q)) s = .next t ∧ t.wbuf = [] ∧
      t.hist = (if s.hist.length = 10 then s.hist.tail else s.hist) ++ [decodeRecord (frameBytes q)] ∧
      t.errorCount.toNat = min (s.errorCount.toNat + 17) 4294967295 ∧
      t.ghost.nAcc = s.ghost.nAcc + 1 ∧ t.ghost.nErr = s.ghost.nErr + 17 ∧
      t.ghost.events = s.ghost.events ++ (if j = 0 then .errStart else if j = 16 then .errEnd else .errChk) ::
        (mid ++ [.accept (decodeRecord (frameBytes q))]) ∧
      mid.length = 16 ∧ ∀ e ∈ mid, e.isReject = true

/-- For every list of exactly 14 bytes there is a byte k: exec CHECKSUM answers the state with the returned value k, and
for each n below 8, bit n of k is set exactly if an odd number of the fourteen bytes have bit n set (so the fold of
xor from 0x00). Formalises R131. -/
def Obligations.ChecksumIsTheBitwiseParity : Prop :=
  ∀ (s : State) (p : List Byte), p.length = 14 → ∃ k : Byte,
    exec (.checksum p) s = .next { s with ret := .byte k } ∧
    k = p.foldl (fun x y => x ^^^ y) 0#8 ∧
    ∀ n, n < 8 → (k.getLsbD n = true ↔ (p.countP (fun b => b.getLsbD n)) % 2 = 1)

/-- For every 17-byte window c: exec VALIDATE answers the state with the returned verdict and changes nothing else:
V_REJ_START if c[0] is not 0xAA; else V_REJ_END if c[16] is not 0x55; else V_REJ_CHK if c[15] is not the exclusive or
of c[1..14]; else V_ACCEPT. Formalises R133, R134. -/
def Obligations.ValidateChecksInOrder : Prop :=
  ∀ (s : State) (a : Byte) (p : List Byte) (k z : Byte), p.length = 14 →
    exec (.validate (a :: (p ++ [k, z]))) s =
      .next { s with ret := .verdict (
        if a ≠ 0xAA#8 then .rejStart
        else if z ≠ 0x55#8 then .rejEnd
        else if k ≠ p.foldl (fun x y => x ^^^ y) 0#8 then .rejChk
        else .accept) }

/-- The operands are "exactly 14 bytes" and "exactly 17 bytes"; on a list of any other length exec answers the refusal
malformedOperand with the mnemonic. That this is a refusal is the model's choice (assumption log 14). Rests on
41_packet_validator.md section 2 and 3 (R131, R133), 42_telemetry_decoder.md section 1 (R145). -/
def Obligations.OperandsOfTheWrongLengthAreRefused : Prop :=
  ∀ (s : State) (c : List Byte),
    (c.length ≠ 14 → exec (.checksum c) s = .refused (.malformedOperand "CHECKSUM")) ∧
    (c.length ≠ 17 → exec (.validate c) s = .refused (.malformedOperand "VALIDATE")) ∧
    (c.length ≠ 17 → exec (.decode c) s = .refused (.malformedOperand "DECODE"))

/-- For every 17-byte window VALIDATE accepts, every offset and every other byte there: at offset 0 the verdict becomes
V_REJ_START, at 16 V_REJ_END, at 1 to 15 V_REJ_CHK. And if a window with payload p passes VALIDATE and q is a
permutation of p, the window with payload q in its place passes too. Both are inferences the spec marks as derived.
Rests on 41_packet_validator.md section 2 and 3 (R131, R137, R139). -/
def Obligations.OneChangedByteIsRejectedPermutationsAreNot : Prop :=
  (∀ (w : List Byte) (j : Nat) (b : Byte), w.length = 17 → validate w = .accept → j < 17 → w[j]? ≠ some b →
    validate (w.set j b) = (if j = 0 then .rejStart else if j = 16 then .rejEnd else .rejChk)) ∧
  (∀ (p q : List Byte) (a k z : Byte), p.length = 14 → p.Perm q →
    validate (a :: (p ++ [k, z])) = .accept → validate (a :: (q ++ [k, z])) = .accept)

/-- For all 17 bytes b0..b16 exec DECODE answers the state with the returned record: five big-endian 16-bit fields
hi*256+lo, the fault level, bits 0, 1, 7 of b14, and the status values of the two status words whatever b14 is (imdst,
vifcst are stated by ImdstByMasks and VifcstByMasks). The temperatures, offsets 3 and 4, are left to
DecodeReadsSignedTemperatures. Formalises R146, R149, R150, R151, R152, R153, R154, R155, R156, R157, R158. -/
def Obligations.DecodeReadsFixedPositions : Prop :=
  ∀ (s : State) (b0 b1 b2 b3 b4 b5 b6 b7 b8 b9 b10 b11 b12 b13 b14 b15 b16 : Byte), ∃ r : Record,
    exec (.decode [b0, b1, b2, b3, b4, b5, b6, b7, b8, b9, b10, b11, b12, b13, b14, b15, b16]) s =
      .next { s with ret := .record r } ∧
    r.motorRpm.toNat = b1.toNat * 256 + b2.toNat ∧
    r.mcuFlags.toNat = b5.toNat * 256 + b6.toNat ∧
    r.mcuFaultLevel = b7 ∧
    r.imdIsoResistance.toNat = b8.toNat * 256 + b9.toNat ∧
    r.imdStatusRaw.toNat = b10.toNat * 256 + b11.toNat ∧
    r.vifcStatusRaw.toNat = b12.toNat * 256 + b13.toNat ∧
    r.imdDataValid = decide (b14 &&& 0x01#8 ≠ 0#8) ∧
    r.motorDataValid = decide (b14 &&& 0x02#8 ≠ 0#8) ∧
    r.selfTestFailed = decide (b14 &&& 0x80#8 ≠ 0#8) ∧
    r.imdState = imdst r.imdStatusRaw ∧ r.vifcState = vifcst r.vifcStatusRaw

/-- For all 17 bytes exec DECODE answers the state with a returned record whose two temperatures are b3 and b4 below 128,
and b3 - 256 and b4 - 256 from 128 on; both lie in -128 to 127. Two's complement is general knowledge (G1, assumption
log 12). Rests on 42_telemetry_decoder.md section 2 (R147, R148), 93_implementation_defined.md section 5 (G1). -/
def Obligations.DecodeReadsSignedTemperatures : Prop :=
  ∀ (s : State) (b0 b1 b2 b3 b4 b5 b6 b7 b8 b9 b10 b11 b12 b13 b14 b15 b16 : Byte), ∃ r : Record,
    exec (.decode [b0, b1, b2, b3, b4, b5, b6, b7, b8, b9, b10, b11, b12, b13, b14, b15, b16]) s =
      .next { s with ret := .record r } ∧
    r.motorTemp = (if b3.toNat < 128 then (b3.toNat : Int) else (b3.toNat : Int) - 256) ∧
    r.mcuTemp = (if b4.toNat < 128 then (b4.toNat : Int) else (b4.toNat : Int) - 256) ∧
    -128 ≤ r.motorTemp ∧ r.motorTemp ≤ 127 ∧ -128 ≤ r.mcuTemp ∧ r.mcuTemp ≤ 127

/-- For all payloads p and q, DECODE of their frames gives equal records if and only if offsets 1 to 13 are equal and the
validity bytes agree under the mask 0x83. An inference the spec marks as derived. Rests on 42_telemetry_decoder.md
section 3 (R162), 42_telemetry_decoder.md section 2 (R156). -/
def Obligations.RecordDeterminesThePayload : Prop :=
  ∀ p q : Payload,
    decodeRecord (frameBytes p) = decodeRecord (frameBytes q) ↔
      ({ p with validity := 0#8 } : Payload) = { q with validity := 0#8 } ∧
      p.validity &&& 0x83#8 = q.validity &&& 0x83#8

/-- For every payload: the 113-bit word of the record its frame decodes to, field by field at the bit positions of R28.
The packing is the spec's decision D14. Rests on 10_state.md section 3 (R28). -/
def Obligations.PackedRecordFollowsTheBusLayout : Prop :=
  ∀ p : Payload,
    let r := decodeRecord (frameBytes p)
    let v := packRecord r
    v.extractLsb' 97 16 = p.motorRpm ∧ v.extractLsb' 89 8 = p.motorTemp ∧ v.extractLsb' 81 8 = p.mcuTemp ∧
    v.extractLsb' 65 16 = p.mcuFlags ∧ v.extractLsb' 57 8 = p.mcuFaultLevel ∧
    v.extractLsb' 41 16 = p.imdIsoResistance ∧ v.extractLsb' 25 16 = p.imdStatusRaw ∧
    v.extractLsb' 9 16 = p.vifcStatusRaw ∧ v.extractLsb' 6 3 = imdCode r.imdState ∧
    v.extractLsb' 3 3 = vifcCode r.vifcState ∧ v.getLsbD 2 = p.validity.getLsbD 1 ∧
    v.getLsbD 1 = p.validity.getLsbD 0 ∧ v.getLsbD 0 = p.validity.getLsbD 7

/-- For every 16-bit word s, exec IMDST answers the state with the returned value x and nothing else changed, where x is
ISO ERROR iff s & 3 is not 0 or bit 5 and one of bits 4, 3 are set; IMD ERROR iff not so and bit 2 is set; IMD WARN
iff s & 0x3F = 0x20; IMD TEST iff it is 0x10 or 0x18; IMD CALIB iff 0x08; IMD OK iff 0. Reading "bits 0,1" as either
is decision D16. Formalises R171. -/
def Obligations.ImdstByMasks : Prop :=
  ∀ (st : State) (s : Half), ∃ x : ImdState,
    exec (.imdst s) st = .next { st with ret := .imd x } ∧
    (x = .isoError ↔ s &&& 0x0003#16 ≠ 0#16 ∨ (s &&& 0x0020#16 ≠ 0#16 ∧ s &&& 0x0018#16 ≠ 0#16)) ∧
    (x = .imdError ↔ s &&& 0x0003#16 = 0#16 ∧ ¬(s &&& 0x0020#16 ≠ 0#16 ∧ s &&& 0x0018#16 ≠ 0#16) ∧
      s &&& 0x0004#16 ≠ 0#16) ∧
    (x = .imdWarn ↔ s &&& 0x003F#16 = 0x20#16) ∧
    (x = .imdTest ↔ s &&& 0x003F#16 = 0x10#16 ∨ s &&& 0x003F#16 = 0x18#16) ∧
    (x = .imdCalib ↔ s &&& 0x003F#16 = 0x08#16) ∧
    (x = .imdOk ↔ s &&& 0x003F#16 = 0#16)

/-- For every 16-bit word v, exec VIFCST answers the state with the returned value x and nothing else changed, where x is
VI COM ERR iff v & 0x16 is not 0; VI STALE iff v & 0x116 = 0x100; VI TST ERR iff v & 0x116 = 0 and v & 0x3000 is not
0; VI ISO ON iff v & 0x3117 = 0; VIFC OK iff v & 0x3117 = 1. Reading "bits 12/13" as either is decision D16.
Formalises R173. -/
def Obligations.VifcstByMasks : Prop :=
  ∀ (st : State) (v : Half), ∃ x : VifcState,
    exec (.vifcst v) st = .next { st with ret := .vifc x } ∧
    (x = .comErr ↔ v &&& 0x0016#16 ≠ 0#16) ∧
    (x = .stale ↔ v &&& 0x0116#16 = 0x0100#16) ∧
    (x = .tstErr ↔ v &&& 0x0116#16 = 0#16 ∧ v &&& 0x3000#16 ≠ 0#16) ∧
    (x = .isoOn ↔ v &&& 0x3117#16 = 0#16) ∧
    (x = .vifcOk ↔ v &&& 0x3117#16 = 0x0001#16)

/-- For every 16-bit word f, exec MCUST answers the state with the returned value x and nothing else changed, where with m
= f modulo 16, x is MCU OK iff m = 0, MCU BLOCK iff m = 1, MCU STOP iff m is 2 or 3, MCU LIMIT iff m is 4 to 7, MCU
WARN iff m >= 8. Formalises R175. -/
def Obligations.McustNamesTheHighestSetBit : Prop :=
  ∀ (st : State) (f : Half), ∃ x : McuState,
    exec (.mcust f) st = .next { st with ret := .mcu x } ∧
    (x = .mcuOk ↔ f.toNat % 16 = 0) ∧ (x = .mcuBlock ↔ f.toNat % 16 = 1) ∧
    (x = .mcuStop ↔ f.toNat % 16 = 2 ∨ f.toNat % 16 = 3) ∧
    (x = .mcuLimit ↔ 4 ≤ f.toNat % 16 ∧ f.toNat % 16 ≤ 7) ∧ (x = .mcuWarn ↔ 8 ≤ f.toNat % 16)

/-- For every 16-bit word f and boolean mv, exec GEAR answers the state with the returned value x and nothing else
changed, where with g = (f / 4) modulo 4, x is blank iff mv is false or g = 3, and with mv true N iff g = 0, R iff g =
1, D iff g = 2. The bit weights are decision D17. Formalises R177. -/
def Obligations.GearReadsBitsThreeAndTwo : Prop :=
  ∀ (st : State) (f : Half) (mv : Bool), ∃ x : Gear,
    exec (.gear f mv) st = .next { st with ret := .gear x } ∧
    (x = .blank ↔ mv = false ∨ f.toNat / 4 % 4 = 3) ∧
    (x = .n ↔ mv = true ∧ f.toNat / 4 % 4 = 0) ∧
    (x = .r ↔ mv = true ∧ f.toNat / 4 % 4 = 1) ∧
    (x = .d ↔ mv = true ∧ f.toNat / 4 % 4 = 2)

/-- Listing each type's values in the order of its table: the strings are the source's literals, the codes 0, 1, 2, ...
The codes are decision D13, the missing string D17. Rests on 30_encoding.md section 3 (R92, R93, R94, R95). -/
def Obligations.StatusNamesAndCodes : Prop :=
  ([ImdState.imdOk, .imdCalib, .imdTest, .imdWarn, .imdError, .isoError].map (fun x => (imdString x, imdCode x)) =
    [("IMD OK", 0#3), ("IMD CALIB", 1#3), ("IMD TEST", 2#3), ("IMD WARN", 3#3), ("IMD ERROR", 4#3), ("ISO ERROR", 5#3)]) ∧
  ([VifcState.vifcOk, .isoOn, .tstErr, .stale, .comErr].map (fun x => (vifcString x, vifcCode x)) =
    [("VIFC OK", 0#3), ("VI ISO ON", 1#3), ("VI TST ERR", 2#3), ("VI STALE", 3#3), ("VI COM ERR", 4#3)]) ∧
  ([McuState.mcuOk, .mcuBlock, .mcuStop, .mcuLimit, .mcuWarn].map (fun x => (mcuString x, mcuCode x)) =
    [("MCU OK", 0#3), ("MCU BLOCK", 1#3), ("MCU STOP", 2#3), ("MCU LIMIT", 3#3), ("MCU WARN", 4#3)]) ∧
  ([Gear.n, .r, .d, .blank].map (fun x => (gearString x, gearCode x)) =
    [(some "N", 0#2), (some "R", 1#2), (some "D", 2#2), (none, 3#2)])

/-- For every state and record: with fewer than ten records held exec PUSH answers the next state with r behind them; with
ten held, the oldest is gone and r stands behind the other nine. Nothing else changes. Formalises R191. -/
def Obligations.PushEvictsTheOldestOnlyWhenFull : Prop :=
  ∀ (s : State) (r : Record),
    (s.hist.length < 10 → exec (.push r) s = .next { s with hist := s.hist ++ [r] }) ∧
    (∀ (old : Record) (rest : List Record), s.hist = old :: rest → rest.length = 9 →
      exec (.push r) s = .next { s with hist := rest ++ [r] })

/-- For every state with at most ten records and every list of records, performing PUSH of each in turn answers the state
whose history is the last ten of the old records followed by the pushed ones, nothing else changed. An inference the
spec marks as derived. Rests on 44_history_buffer.md section 2 (R192). -/
def Obligations.PushesKeepTheLastTen : Prop :=
  ∀ (s : State) (rs : List Record), s.hist.length ≤ 10 →
    execAll (rs.map Instr.push) s =
      .next { s with hist := (s.hist ++ rs).drop (s.hist.length + rs.length - 10) }

/-- For every state exec SNAP, GERR and GLRT answer the state with the response set to the copy of the history (kind 1;
with at most ten records held, c_rsp_len is hlen and each c_rsp_recs[i] below it the packed record of slot i),
error_count (kind 2, zero-extended) and last_receive_time (kind 3, zero-extended), and nothing else changed. Their C
words are 100, 101, 110. Formalises R194, R202, R203. -/
def Obligations.ConsumerReadsAnswerAndChangeNothing : Prop :=
  ∀ s : State, ∃ a b c : State,
    exec .snap s = .next a ∧ a = { s with rsp := .snapshot s.hist } ∧ a.cRspKind = 1#2 ∧
    (s.hlen ≤ 10 → a.cRspLen.toNat = s.hlen ∧
      ∀ (i : Fin 10) (r : Record), s.readSlot i.val = some r → a.cRspRec i = packRecord r) ∧
    decodeC 0b100#3 = .snap ∧
    exec .gerr s = .next b ∧ b = { s with rsp := .errorCount s.errorCount } ∧ b.cRspKind = 2#2 ∧
    b.cRspWord.toNat = s.errorCount.toNat ∧ decodeC 0b101#3 = .gerr ∧
    exec .glrt s = .next c ∧ c = { s with rsp := .lastRxTime s.lastReceiveTime } ∧ c.cRspKind = 3#2 ∧
    c.cRspWord.toNat = s.lastReceiveTime.toNat ∧ decodeC 0b110#3 = .glrt

/-- For every state exec CLR answers the state with an empty history and no response, and nothing else changed; SNAP right
after it answers a snapshot of length 0. The narrow reading is decision D12. Formalises R197, R198. -/
def Obligations.ClrEmptiesTheHistoryAndNothingElse : Prop :=
  ∀ s : State,
    exec .clr s = .next { s with hist := [], rsp := .none } ∧
    execAll [.clr, .snap] s = .next { s with hist := [], rsp := .snapshot [] }

/-- For every state: with error_count below 2^32 - 1 exec RECERR answers the state with the count one more, at 2^32 - 1
with the count the same; in both the ghost n_err, unbounded, is one more and nothing else changes. The width and
saturation are decision D6; when RECERR is invoked is stated by ExtractMakesOnePass. Formalises R199. -/
def Obligations.RecerrSaturates : Prop :=
  ∀ s : State,
    (s.errorCount.toNat < 4294967295 →
      exec .recerr s =
        .next { s with errorCount := s.errorCount + 1#32, ghost := { s.ghost with nErr := s.ghost.nErr + 1 } }) ∧
    (s.errorCount.toNat = 4294967295 →
      exec .recerr s = .next { s with ghost := { s.ghost with nErr := s.ghost.nErr + 1 } })

/-- For every operation other than RESET and every state: if exec answers a next state, its error_count is not smaller.
For every step whose pins do not have rst = 1, likewise. Nothing but reset sets it back to 0. Rests on
44_history_buffer.md section 5 (R200), 70_reset_and_hazards.md section 1 (R272). -/
def Obligations.ErrorCountNeverFalls : Prop :=
  (∀ (i : Instr) (s t : State), i ≠ .reset → exec i s = .next t → s.errorCount.toNat ≤ t.errorCount.toNat) ∧
  (∀ s t : State, (∀ (p : Pins) (rest : List Pins), s.inbox = p :: rest → p.rst = false) → step s = .next t →
    s.errorCount.toNat ≤ t.errorCount.toNat)

/-- For every state exec TOUCH answers the state with last_receive_time the value of the time input in the step,
State.now, whatever was held before, and nothing else changed. Formalises R201. -/
def Obligations.TouchCopiesNow : Prop :=
  ∀ s : State, exec .touch s = .next { s with lastReceiveTime := s.now }

/-- For every state with wlen <= 16 and every step with rst = 0, whatever the RX word: the step answers a next state whose
response is the history, error_count or last_receive_time at the start of the step for the C words 100, 101, 110, and
none for 111 and 0xx. The order is decision D10. Rests on 70_reset_and_hazards.md section 3 (R284),
45_receiver_loop.md section 5 (R226). -/
def Obligations.SameStepReadsSeeTheOldState : Prop :=
  ∀ (s : State) (p : Pins) (rest : List Pins), s.wlen ≤ 16 → s.inbox = p :: rest → p.rst = false → ∃ t : State,
    step s = .next t ∧
    (p.cWord = 0b100#3 → t.rsp = .snapshot s.hist) ∧
    (p.cWord = 0b101#3 → t.rsp = .errorCount s.errorCount) ∧
    (p.cWord = 0b110#3 → t.rsp = .lastRxTime s.lastReceiveTime) ∧
    (p.cWord = 0b111#3 ∨ p.cWord.getLsbD 2 = false → t.rsp = .none)

/-- For every state holding 16 bytes that with d make a frame VALIDATE accepts: the step with CLR on the C port and RXB d
on the RX port answers a next state whose history is exactly the decoded record. The order is decision D10. Formalises
R285. -/
def Obligations.ClrWithAnAcceptanceKeepsTheNewRecord : Prop :=
  ∀ (s : State) (d : Byte) (rest : List Pins),
    s.inbox = { rst := false, cWord := 0b111#3, rxWord := 1#1 ++ d } :: rest → s.wlen = 16 →
    validate (s.wbuf ++ [d]) = .accept → ∃ t : State,
      step s = .next t ∧ t.hist = [decodeRecord (s.wbuf ++ [d])] ∧ t.rsp = .none

/-- For every state and step with rst = 0 whose RX word presents no byte: the step answers a next state with the buffer,
error_count, last_receive_time and ghosts unchanged and the event EV_NONE; the history is unchanged unless the C word
is CLR, then it is empty. Rests on 10_state.md section 2 and 10 (R25, R41), 60_exceptions.md section 7 (R255). -/
def Obligations.OnlyAByteChangesBufferAndCounters : Prop :=
  ∀ (s : State) (p : Pins) (rest : List Pins), s.inbox = p :: rest → p.rst = false → p.rxWord.getLsbD 8 = false →
    ∃ t : State, step s = .next t ∧ t.wbuf = s.wbuf ∧ t.errorCount = s.errorCount ∧
      t.lastReceiveTime = s.lastReceiveTime ∧ t.ghost = s.ghost ∧ t.event = .none ∧
      t.hist = (if p.cWord = 0b111#3 then [] else s.hist)

/-- For every state s and any other ghosts g: if step answers next t from s, it answers from s with g in place of the
ghosts a state that differs from t in the ghosts only. That the ghosts stand in State is the model's choice
(assumption log 16). Rests on 10_state.md section 7 and 9 (R33, R39). -/
def Obligations.GhostsAreNeverRead : Prop :=
  ∀ (s t : State) (g : Ghost), step s = .next t →
    ∃ t' : State, step { s with ghost := g } = .next t' ∧ { t' with ghost := t.ghost } = t

/-- For every state the two readings of the parameter give the same return value, and states that agree in everything but
error_count and the ghost n_err. Rests on 92_eei_decisions.md D7, 40_frame_assembler.md section 3 (R114). -/
def Obligations.CountStartMissTouchesTheCountOnly : Prop :=
  ∀ s : State,
    (extractPass true s).2 = (extractPass false s).2 ∧
    (extractPass false s).1 =
      { (extractPass true s).1 with
        errorCount := (extractPass false s).1.errorCount
        ghost := { (extractPass true s).1.ghost with nErr := (extractPass false s).1.ghost.nErr } }

/-- If a step answers next t: ev_kind in t is at most 4, never EV_ERR_DECODE; if it is EV_ACCEPT, ev_record is the packed
newest record of t's history, and the event holds that record. If t's response is a snapshot, it is the history at the
start of the step, c_rsp_kind is 1, c_rsp_len is hlen (with at most ten records held) and each c_rsp_recs[i] below it
the packed record of slot i; entries beyond are free values. The continuous outputs at the start of a step with at
most 17 bytes and ten records held are wlen, hlen, error_count, last_receive_time and the code of rxstate; and with
rst = 0 the step's GERR and GLRT words are error_count_o and last_rx_time_o (zero-extended, kinds 2 and 3), SNAP's
length is hlen_o, and CNOP and CLR have kind 0. That the step's outputs stand in State is the model's choice
(assumption log 4). Rests on 10_state.md section 8 (R35, R36), 60_exceptions.md section 1 (R240, R241, R246). -/
def Obligations.OutputsOfAStepOnThePorts : Prop :=
  (∀ s t : State, step s = .next t → t.event ≠ .errDecode ∧ t.evKind.toNat ≤ 4 ∧
    (t.evKind = 1#3 → ∃ r : Record, t.event = .accept r ∧ t.hist.getLast? = some r ∧ t.evRecord = packRecord r)) ∧
  (∀ (s t : State) (recs : List Record), s.hlen ≤ 10 → step s = .next t → t.rsp = .snapshot recs →
    recs = s.hist ∧ t.cRspKind = 1#2 ∧ t.cRspLen.toNat = s.hlen ∧
    ∀ (i : Fin 10) (r : Record), s.readSlot i.val = some r → t.cRspRec i = packRecord r) ∧
  (∀ s : State, s.wlen ≤ 17 → s.hlen ≤ 10 →
    s.wlenO.toNat = s.wlen ∧ s.hlenO.toNat = s.hlen ∧ s.errorCountO = s.errorCount ∧
    s.lastRxTimeO = s.lastReceiveTime ∧ s.rxstateO.toNat = (if s.wlen = 0 then 0 else if s.wlen ≤ 16 then 1 else 2)) ∧
  (∀ (s t : State) (p : Pins) (rest : List Pins), s.inbox = p :: rest → p.rst = false → step s = .next t →
    (p.cWord = 0b100#3 → t.cRspKind = 1#2 ∧ t.cRspLen = s.hlenO) ∧
    (p.cWord = 0b101#3 → t.cRspKind = 2#2 ∧ t.cRspWord.toNat = s.errorCountO.toNat) ∧
    (p.cWord = 0b110#3 → t.cRspKind = 3#2 ∧ t.cRspWord.toNat = s.lastRxTimeO.toNat) ∧
    (p.cWord = 0b111#3 ∨ p.cWord.getLsbD 2 = false → t.cRspKind = 0#2))
end

