-- ==== Sys2Proof/Laws/Window.lean ====
section
/-! SUPPORT. The pure functions of a window: each said once in the form the proofs cite. -/

namespace Sys2Proof.Machine

/-- A list of 17 bytes is a first byte, 14 bytes, and two more. -/
theorem window_split {w : List Byte} (h : w.length = 17) :
    ∃ (a : Byte) (p : List Byte) (k z : Byte), p.length = 14 ∧ w = a :: (p ++ [k, z]) := by
  obtain ⟨a, t, rfl⟩ := List.exists_cons_of_length_eq_add_one h
  refine ⟨a, t.take 14, t[14]'(by simp at h; omega), t[15]'(by simp at h; omega), by simp at h ⊢; omega, ?_⟩
  have ht : t.length = 16 := by simpa using h
  congr 1
  apply List.ext_getElem
  · simp [ht]
  · intro i h1 h2
    by_cases hi : i < 14
    · simp [ht, hi]
    · have : i = 14 ∨ i = 15 := by omega
      rcases this with rfl | rfl <;> simp [ht]

/-- `VALIDATE` on a window written as marker, payload, checksum, marker (R133). -/
theorem validate_window {a k z : Byte} {p : List Byte} (hp : p.length = 14) :
    validate (a :: (p ++ [k, z])) =
      if a ≠ 0xAA#8 then .rejStart else if z ≠ 0x55#8 then .rejEnd else if k ≠ xorBytes p then .rejChk else .accept := by
  have h15 : byteAt (a :: (p ++ [k, z])) 15 = k := by
    simp [byteAt, hp]
  have h16 : byteAt (a :: (p ++ [k, z])) 16 = z := by
    simp [byteAt, hp]
  have hpl : payloadOf (a :: (p ++ [k, z])) = p := by
    simp [payloadOf, Config.payloadLen, hp]
  unfold validate
  rw [show Config.chkOff = 15 from rfl, h15, h16, hpl]
  rfl

/-- The windows `VALIDATE` accepts are the frames (R133, R140). -/
theorem validate_accept_iff {w : List Byte} (h : w.length = 17) :
    validate w = .accept ↔ ∃ p : List Byte, p.length = 14 ∧ w = 0xAA#8 :: (p ++ [xorBytes p, 0x55#8]) := by
  obtain ⟨a, p, k, z, hp, rfl⟩ := window_split h
  rw [validate_window hp]
  constructor
  · intro hv
    split at hv
    · cases hv
    split at hv
    · cases hv
    split at hv
    · cases hv
    refine ⟨p, hp, ?_⟩
    simp_all
  · rintro ⟨q, hq, e⟩
    simp only [List.cons.injEq] at e
    obtain ⟨rfl, e⟩ := e
    obtain ⟨rfl, e2⟩ := List.append_inj e (by omega)
    simp at e2
    obtain ⟨rfl, rfl⟩ := e2
    simp

/-- The frame of a payload is 17 bytes. -/
@[simp] theorem frameBytes_length (p : Payload) : (frameBytes p).length = 17 := rfl

@[simp] theorem payloadBytes_length (p : Payload) : (payloadBytes p).length = 14 := rfl

/-- `VALIDATE` accepts every frame (R133). -/
@[simp] theorem validate_frameBytes (p : Payload) : validate (frameBytes p) = .accept :=
  (validate_accept_iff (frameBytes_length p)).2 ⟨payloadBytes p, rfl, rfl⟩

/-- `xorBytes` from any start (R131). -/
theorem foldl_xor_start (p : List Byte) (k : Byte) :
    p.foldl (fun x y => x ^^^ y) k = k ^^^ xorBytes p := by
  induction p generalizing k with
  | nil => simp [xorBytes]
  | cons b p ih => simp only [xorBytes, List.foldl_cons]; rw [ih, ih]; simp [BitVec.xor_assoc]

@[simp] theorem xorBytes_nil : xorBytes [] = 0#8 := rfl

theorem xorBytes_cons (b : Byte) (p : List Byte) : xorBytes (b :: p) = b ^^^ xorBytes p := by
  have := foldl_xor_start p (0#8 ^^^ b)
  simpa [xorBytes] using this

theorem xorBytes_append (p q : List Byte) : xorBytes (p ++ q) = xorBytes p ^^^ xorBytes q := by
  induction p with
  | nil => simp
  | cons b p ih => simp [xorBytes_cons, ih, BitVec.xor_assoc]

/-- A signed byte is a signed 8-bit number (R14). -/
theorem s8_range (b : Byte) : inS8 (s8 b) = true := by
  have := b.isLt
  unfold inS8 s8
  split <;> simp <;> omega

/-- Every record that `DECODE` gives is well-formed (R26, R157, R158). -/
@[simp] theorem decodeRecord_wf (c : List Byte) : (decodeRecord c).wf = true := by
  simp [Record.wf, decodeRecord, s8_range]

end Sys2Proof.Machine
end

