-- ==== Sys2Proof/Laws/Encoding.lean ====
section
/-! SUPPORT. The frame word bit by bit and byte by byte. -/

namespace Sys2Proof

open Machine

/-- A byte's bits are the frame word's bits at its place (R82). -/
theorem wireByte_getLsbD (f : BitVec 136) (k i : Nat) (hi : i < 8) :
    (wireByte f k).getLsbD i = f.getLsbD (128 - 8 * k + i) := by
  simp [wireByte, hi]

/-- The frame word is its 17 bytes (R82). -/
theorem wireBytes_injective {f g : BitVec 136} (h : wireBytes f = wireBytes g) : f = g := by
  apply BitVec.eq_of_getLsbD_eq
  intro n hn
  have hb : ∀ k, k < 17 → wireByte f k = wireByte g k := by
    intro k hk
    have := congrArg (fun l => l[k]?) h
    simpa only [wireBytes, List.getElem?_map, List.getElem?_range hk, Option.map_some, Option.some.injEq] using this
  have h2 := congrArg (fun b => b.getLsbD (n % 8)) (hb (16 - n / 8) (by omega))
  rw [wireByte_getLsbD _ _ _ (by omega), wireByte_getLsbD _ _ _ (by omega)] at h2
  rwa [show 128 - 8 * (16 - n / 8) + n % 8 = n by omega] at h2

/-- Mask and match say that the first byte is 0xAA and the last 0x55 (R83). -/
theorem wireMask_iff (f : BitVec 136) :
    f &&& wireMask = wireMatch ↔ wireByte f 0 = 0xAA#8 ∧ wireByte f 16 = 0x55#8 := by
  constructor
  · intro h
    constructor
    · apply BitVec.eq_of_getLsbD_eq
      intro i hi
      rw [wireByte_getLsbD _ _ _ hi]
      have := congrArg (fun w => w.getLsbD (128 + i)) h
      simp only [BitVec.getLsbD_and] at this
      interval_cases i <;> simpa [wireMask, wireMatch] using this
    · apply BitVec.eq_of_getLsbD_eq
      intro i hi
      rw [wireByte_getLsbD _ _ _ hi]
      have := congrArg (fun w => w.getLsbD i) h
      simp only [BitVec.getLsbD_and] at this
      interval_cases i <;> simpa [wireMask, wireMatch] using this
  · rintro ⟨h1, h2⟩
    apply BitVec.eq_of_getLsbD_eq
    intro n hn
    rw [BitVec.getLsbD_and]
    by_cases a : n < 8
    · have := congrArg (fun w => w.getLsbD n) h2
      simp only [wireByte_getLsbD _ 16 _ a] at this
      interval_cases n <;> simp [wireMask, wireMatch] at this ⊢ <;> exact this
    · by_cases b : 128 ≤ n
      · have := congrArg (fun w => w.getLsbD (n - 128)) h1
        simp only [wireByte_getLsbD _ 0 _ (show n - 128 < 8 by omega)] at this
        interval_cases n <;> simp [wireMask, wireMatch] at this ⊢ <;> exact this
      · have : wireMask.getLsbD n = false ∧ wireMatch.getLsbD n = false := by
          interval_cases n <;> decide
        simp [this]

/-- The encoded frame, bit by bit: each field at its place of R87, both markers and the checksum around them (R82). -/
theorem encodeWire_getLsbD (p : Payload) (k : Nat) :
    (encodeWire p).getLsbD k =
      if k < 8 then Config.endByte.getLsbD k
      else if k - 8 < 8 then (xorBytes (payloadBytes p)).getLsbD (k - 8)
      else if k - 16 < 8 then p.validity.getLsbD (k - 16)
      else if k - 24 < 16 then p.vifcStatusRaw.getLsbD (k - 24)
      else if k - 40 < 16 then p.imdStatusRaw.getLsbD (k - 40)
      else if k - 56 < 16 then p.imdIsoResistance.getLsbD (k - 56)
      else if k - 72 < 8 then p.mcuFaultLevel.getLsbD (k - 72)
      else if k - 80 < 16 then p.mcuFlags.getLsbD (k - 80)
      else if k - 96 < 8 then p.mcuTemp.getLsbD (k - 96)
      else if k - 104 < 8 then p.motorTemp.getLsbD (k - 104)
      else if k - 112 < 16 then p.motorRpm.getLsbD (k - 112)
      else Config.startByte.getLsbD (k - 128) := by
  refine (BitVec.getLsbD_append).trans ?_
  simp only [BitVec.getLsbD_append]
  simp only [Nat.sub_sub, Nat.reduceAdd]

/-- The bytes of the encoded frame are the 17 bytes in transmission order (R52, R82). -/
theorem wireBytes_encodeWire (p : Payload) : wireBytes (encodeWire p) = frameBytes p := by
  simp only [wireBytes, List.range, List.range.loop, frameBytes, payloadBytes, List.map]
  simp only [List.cons_append, List.nil_append, List.cons.injEq, and_true]
  refine ⟨?_, ?_, ?_, ?_, ?_, ?_, ?_, ?_, ?_, ?_, ?_, ?_, ?_, ?_, ?_, ?_, ?_⟩ <;>
  · apply BitVec.eq_of_getLsbD_eq
    intro i hi
    rw [wireByte_getLsbD _ _ _ hi, encodeWire_getLsbD]
    try simp only [hiByte, loByte, BitVec.getLsbD_extractLsb', hi, decide_true, Bool.true_and]
    interval_cases i <;> rfl

/-- A 16-bit field is its two bytes (R53). -/
theorem u16be_hiByte_loByte (v : Half) : u16be (hiByte v) (loByte v) = v := by
  apply BitVec.eq_of_getLsbD_eq
  intro i hi
  refine (BitVec.getLsbD_append (x := hiByte v) (y := loByte v)).trans ?_
  simp only [hiByte, loByte, BitVec.getLsbD_extractLsb']
  split
  · simp [*]
  · rw [decide_eq_true (by omega)]
    simp
    congr 1
    omega

/-- A big-endian pair of bytes as a number (R14). -/
theorem u16be_toNat (a b : Byte) : (u16be a b).toNat = a.toNat * 256 + b.toNat := by
  have := b.isLt
  rw [u16be, BitVec.toNat_append, ← Nat.shiftLeft_add_eq_or_of_lt this, Nat.shiftLeft_eq]

end Sys2Proof
end

