-- ==== Sys2Proof/Laws/State.lean ====
section
/-! SUPPORT. One lemma per field of `State` per named update, so that no later proof unfolds a record update. -/

namespace Sys2Proof.Machine

/-! ### `State.emit` -/

@[simp] theorem State.emit_wbuf (s : State) (e : Event) : (s.emit e).wbuf = s.wbuf := rfl
@[simp] theorem State.emit_hist (s : State) (e : Event) : (s.emit e).hist = s.hist := rfl
@[simp] theorem State.emit_errorCount (s : State) (e : Event) : (s.emit e).errorCount = s.errorCount := rfl
@[simp] theorem State.emit_lastReceiveTime (s : State) (e : Event) : (s.emit e).lastReceiveTime = s.lastReceiveTime := rfl
@[simp] theorem State.emit_ghost (s : State) (e : Event) : (s.emit e).ghost = { s.ghost with events := if e = .none then s.ghost.events else s.ghost.events ++ [e] } := rfl
@[simp] theorem State.emit_event (s : State) (e : Event) : (s.emit e).event = e := rfl
@[simp] theorem State.emit_rsp (s : State) (e : Event) : (s.emit e).rsp = s.rsp := rfl
@[simp] theorem State.emit_ret (s : State) (e : Event) : (s.emit e).ret = s.ret := rfl
@[simp] theorem State.emit_inbox (s : State) (e : Event) : (s.emit e).inbox = s.inbox := rfl
@[simp] theorem State.emit_times (s : State) (e : Event) : (s.emit e).times = s.times := rfl
@[simp] theorem State.emit_steps (s : State) (e : Event) : (s.emit e).steps = s.steps := rfl

/-! ### `State.respond` -/

@[simp] theorem State.respond_wbuf (s : State) (r : Response) : (s.respond r).wbuf = s.wbuf := rfl
@[simp] theorem State.respond_hist (s : State) (r : Response) : (s.respond r).hist = s.hist := rfl
@[simp] theorem State.respond_errorCount (s : State) (r : Response) : (s.respond r).errorCount = s.errorCount := rfl
@[simp] theorem State.respond_lastReceiveTime (s : State) (r : Response) : (s.respond r).lastReceiveTime = s.lastReceiveTime := rfl
@[simp] theorem State.respond_ghost (s : State) (r : Response) : (s.respond r).ghost = s.ghost := rfl
@[simp] theorem State.respond_event (s : State) (r : Response) : (s.respond r).event = s.event := rfl
@[simp] theorem State.respond_rsp (s : State) (r : Response) : (s.respond r).rsp = r := rfl
@[simp] theorem State.respond_ret (s : State) (r : Response) : (s.respond r).ret = s.ret := rfl
@[simp] theorem State.respond_inbox (s : State) (r : Response) : (s.respond r).inbox = s.inbox := rfl
@[simp] theorem State.respond_times (s : State) (r : Response) : (s.respond r).times = s.times := rfl
@[simp] theorem State.respond_steps (s : State) (r : Response) : (s.respond r).steps = s.steps := rfl

/-! ### `State.setRet` -/

@[simp] theorem State.setRet_wbuf (s : State) (v : Ret) : (s.setRet v).wbuf = s.wbuf := rfl
@[simp] theorem State.setRet_hist (s : State) (v : Ret) : (s.setRet v).hist = s.hist := rfl
@[simp] theorem State.setRet_errorCount (s : State) (v : Ret) : (s.setRet v).errorCount = s.errorCount := rfl
@[simp] theorem State.setRet_lastReceiveTime (s : State) (v : Ret) : (s.setRet v).lastReceiveTime = s.lastReceiveTime := rfl
@[simp] theorem State.setRet_ghost (s : State) (v : Ret) : (s.setRet v).ghost = s.ghost := rfl
@[simp] theorem State.setRet_event (s : State) (v : Ret) : (s.setRet v).event = s.event := rfl
@[simp] theorem State.setRet_rsp (s : State) (v : Ret) : (s.setRet v).rsp = s.rsp := rfl
@[simp] theorem State.setRet_ret (s : State) (v : Ret) : (s.setRet v).ret = v := rfl
@[simp] theorem State.setRet_inbox (s : State) (v : Ret) : (s.setRet v).inbox = s.inbox := rfl
@[simp] theorem State.setRet_times (s : State) (v : Ret) : (s.setRet v).times = s.times := rfl
@[simp] theorem State.setRet_steps (s : State) (v : Ret) : (s.setRet v).steps = s.steps := rfl

/-! ### `State.recErr` -/

@[simp] theorem State.recErr_wbuf (s : State) : s.recErr.wbuf = s.wbuf := rfl
@[simp] theorem State.recErr_hist (s : State) : s.recErr.hist = s.hist := rfl
@[simp] theorem State.recErr_errorCount (s : State) : s.recErr.errorCount = saturatingSucc s.errorCount := rfl
@[simp] theorem State.recErr_lastReceiveTime (s : State) : s.recErr.lastReceiveTime = s.lastReceiveTime := rfl
@[simp] theorem State.recErr_ghost (s : State) : s.recErr.ghost = { s.ghost with nErr := s.ghost.nErr + 1 } := rfl
@[simp] theorem State.recErr_event (s : State) : s.recErr.event = s.event := rfl
@[simp] theorem State.recErr_rsp (s : State) : s.recErr.rsp = s.rsp := rfl
@[simp] theorem State.recErr_ret (s : State) : s.recErr.ret = s.ret := rfl
@[simp] theorem State.recErr_inbox (s : State) : s.recErr.inbox = s.inbox := rfl
@[simp] theorem State.recErr_times (s : State) : s.recErr.times = s.times := rfl
@[simp] theorem State.recErr_steps (s : State) : s.recErr.steps = s.steps := rfl

/-! ### `State.touch` -/

@[simp] theorem State.touch_wbuf (s : State) : s.touch.wbuf = s.wbuf := rfl
@[simp] theorem State.touch_hist (s : State) : s.touch.hist = s.hist := rfl
@[simp] theorem State.touch_errorCount (s : State) : s.touch.errorCount = s.errorCount := rfl
@[simp] theorem State.touch_lastReceiveTime (s : State) : s.touch.lastReceiveTime = s.now := rfl
@[simp] theorem State.touch_ghost (s : State) : s.touch.ghost = s.ghost := rfl
@[simp] theorem State.touch_event (s : State) : s.touch.event = s.event := rfl
@[simp] theorem State.touch_rsp (s : State) : s.touch.rsp = s.rsp := rfl
@[simp] theorem State.touch_ret (s : State) : s.touch.ret = s.ret := rfl
@[simp] theorem State.touch_inbox (s : State) : s.touch.inbox = s.inbox := rfl
@[simp] theorem State.touch_times (s : State) : s.touch.times = s.times := rfl
@[simp] theorem State.touch_steps (s : State) : s.touch.steps = s.steps := rfl

/-! ### `State.push` -/

@[simp] theorem State.push_wbuf (s : State) (r : Record) : (s.push r).wbuf = s.wbuf := rfl
@[simp] theorem State.push_hist (s : State) (r : Record) : (s.push r).hist = pushRecord s.hist r := rfl
@[simp] theorem State.push_errorCount (s : State) (r : Record) : (s.push r).errorCount = s.errorCount := rfl
@[simp] theorem State.push_lastReceiveTime (s : State) (r : Record) : (s.push r).lastReceiveTime = s.lastReceiveTime := rfl
@[simp] theorem State.push_ghost (s : State) (r : Record) : (s.push r).ghost = s.ghost := rfl
@[simp] theorem State.push_event (s : State) (r : Record) : (s.push r).event = s.event := rfl
@[simp] theorem State.push_rsp (s : State) (r : Record) : (s.push r).rsp = s.rsp := rfl
@[simp] theorem State.push_ret (s : State) (r : Record) : (s.push r).ret = s.ret := rfl
@[simp] theorem State.push_inbox (s : State) (r : Record) : (s.push r).inbox = s.inbox := rfl
@[simp] theorem State.push_times (s : State) (r : Record) : (s.push r).times = s.times := rfl
@[simp] theorem State.push_steps (s : State) (r : Record) : (s.push r).steps = s.steps := rfl

/-! ### `State.clearHist` -/

@[simp] theorem State.clearHist_wbuf (s : State) : s.clearHist.wbuf = s.wbuf := rfl
@[simp] theorem State.clearHist_hist (s : State) : s.clearHist.hist = [] := rfl
@[simp] theorem State.clearHist_errorCount (s : State) : s.clearHist.errorCount = s.errorCount := rfl
@[simp] theorem State.clearHist_lastReceiveTime (s : State) : s.clearHist.lastReceiveTime = s.lastReceiveTime := rfl
@[simp] theorem State.clearHist_ghost (s : State) : s.clearHist.ghost = s.ghost := rfl
@[simp] theorem State.clearHist_event (s : State) : s.clearHist.event = s.event := rfl
@[simp] theorem State.clearHist_rsp (s : State) : s.clearHist.rsp = s.rsp := rfl
@[simp] theorem State.clearHist_ret (s : State) : s.clearHist.ret = s.ret := rfl
@[simp] theorem State.clearHist_inbox (s : State) : s.clearHist.inbox = s.inbox := rfl
@[simp] theorem State.clearHist_times (s : State) : s.clearHist.times = s.times := rfl
@[simp] theorem State.clearHist_steps (s : State) : s.clearHist.steps = s.steps := rfl

/-! ### `State.appendByte` -/

@[simp] theorem State.appendByte_wbuf (s : State) (d : Byte) : (s.appendByte d).wbuf = s.wbuf ++ [d] := rfl
@[simp] theorem State.appendByte_hist (s : State) (d : Byte) : (s.appendByte d).hist = s.hist := rfl
@[simp] theorem State.appendByte_errorCount (s : State) (d : Byte) : (s.appendByte d).errorCount = s.errorCount := rfl
@[simp] theorem State.appendByte_lastReceiveTime (s : State) (d : Byte) : (s.appendByte d).lastReceiveTime = s.lastReceiveTime := rfl
@[simp] theorem State.appendByte_ghost (s : State) (d : Byte) : (s.appendByte d).ghost = { s.ghost with nIn := s.ghost.nIn + 1 } := rfl
@[simp] theorem State.appendByte_event (s : State) (d : Byte) : (s.appendByte d).event = s.event := rfl
@[simp] theorem State.appendByte_rsp (s : State) (d : Byte) : (s.appendByte d).rsp = s.rsp := rfl
@[simp] theorem State.appendByte_ret (s : State) (d : Byte) : (s.appendByte d).ret = s.ret := rfl
@[simp] theorem State.appendByte_inbox (s : State) (d : Byte) : (s.appendByte d).inbox = s.inbox := rfl
@[simp] theorem State.appendByte_times (s : State) (d : Byte) : (s.appendByte d).times = s.times := rfl
@[simp] theorem State.appendByte_steps (s : State) (d : Byte) : (s.appendByte d).steps = s.steps := rfl

/-! ### `State.dropBytes` -/

@[simp] theorem State.dropBytes_wbuf (s : State) (k : Nat) : (s.dropBytes k).wbuf = s.wbuf.drop k := rfl
@[simp] theorem State.dropBytes_hist (s : State) (k : Nat) : (s.dropBytes k).hist = s.hist := rfl
@[simp] theorem State.dropBytes_errorCount (s : State) (k : Nat) : (s.dropBytes k).errorCount = s.errorCount := rfl
@[simp] theorem State.dropBytes_lastReceiveTime (s : State) (k : Nat) : (s.dropBytes k).lastReceiveTime = s.lastReceiveTime := rfl
@[simp] theorem State.dropBytes_ghost (s : State) (k : Nat) : (s.dropBytes k).ghost = { s.ghost with nOut := s.ghost.nOut + k } := rfl
@[simp] theorem State.dropBytes_event (s : State) (k : Nat) : (s.dropBytes k).event = s.event := rfl
@[simp] theorem State.dropBytes_rsp (s : State) (k : Nat) : (s.dropBytes k).rsp = s.rsp := rfl
@[simp] theorem State.dropBytes_ret (s : State) (k : Nat) : (s.dropBytes k).ret = s.ret := rfl
@[simp] theorem State.dropBytes_inbox (s : State) (k : Nat) : (s.dropBytes k).inbox = s.inbox := rfl
@[simp] theorem State.dropBytes_times (s : State) (k : Nat) : (s.dropBytes k).times = s.times := rfl
@[simp] theorem State.dropBytes_steps (s : State) (k : Nat) : (s.dropBytes k).steps = s.steps := rfl

/-! ### `State.countAccepted` -/

@[simp] theorem State.countAccepted_wbuf (s : State) : s.countAccepted.wbuf = s.wbuf := rfl
@[simp] theorem State.countAccepted_hist (s : State) : s.countAccepted.hist = s.hist := rfl
@[simp] theorem State.countAccepted_errorCount (s : State) : s.countAccepted.errorCount = s.errorCount := rfl
@[simp] theorem State.countAccepted_lastReceiveTime (s : State) : s.countAccepted.lastReceiveTime = s.lastReceiveTime := rfl
@[simp] theorem State.countAccepted_ghost (s : State) : s.countAccepted.ghost = { s.ghost with nAcc := s.ghost.nAcc + 1 } := rfl
@[simp] theorem State.countAccepted_event (s : State) : s.countAccepted.event = s.event := rfl
@[simp] theorem State.countAccepted_rsp (s : State) : s.countAccepted.rsp = s.rsp := rfl
@[simp] theorem State.countAccepted_ret (s : State) : s.countAccepted.ret = s.ret := rfl
@[simp] theorem State.countAccepted_inbox (s : State) : s.countAccepted.inbox = s.inbox := rfl
@[simp] theorem State.countAccepted_times (s : State) : s.countAccepted.times = s.times := rfl
@[simp] theorem State.countAccepted_steps (s : State) : s.countAccepted.steps = s.steps := rfl

/-! ### `State.beginStep` -/

@[simp] theorem State.beginStep_wbuf (s : State) : s.beginStep.wbuf = s.wbuf := rfl
@[simp] theorem State.beginStep_hist (s : State) : s.beginStep.hist = s.hist := rfl
@[simp] theorem State.beginStep_errorCount (s : State) : s.beginStep.errorCount = s.errorCount := rfl
@[simp] theorem State.beginStep_lastReceiveTime (s : State) : s.beginStep.lastReceiveTime = s.lastReceiveTime := rfl
@[simp] theorem State.beginStep_ghost (s : State) : s.beginStep.ghost = s.ghost := rfl
@[simp] theorem State.beginStep_event (s : State) : s.beginStep.event = Event.none := rfl
@[simp] theorem State.beginStep_rsp (s : State) : s.beginStep.rsp = Response.none := rfl
@[simp] theorem State.beginStep_ret (s : State) : s.beginStep.ret = s.ret := rfl
@[simp] theorem State.beginStep_inbox (s : State) : s.beginStep.inbox = s.inbox := rfl
@[simp] theorem State.beginStep_times (s : State) : s.beginStep.times = s.times := rfl
@[simp] theorem State.beginStep_steps (s : State) : s.beginStep.steps = s.steps := rfl

/-! ### `State.endStep` -/

@[simp] theorem State.endStep_wbuf (s : State) : s.endStep.wbuf = s.wbuf := rfl
@[simp] theorem State.endStep_hist (s : State) : s.endStep.hist = s.hist := rfl
@[simp] theorem State.endStep_errorCount (s : State) : s.endStep.errorCount = s.errorCount := rfl
@[simp] theorem State.endStep_lastReceiveTime (s : State) : s.endStep.lastReceiveTime = s.lastReceiveTime := rfl
@[simp] theorem State.endStep_ghost (s : State) : s.endStep.ghost = s.ghost := rfl
@[simp] theorem State.endStep_event (s : State) : s.endStep.event = s.event := rfl
@[simp] theorem State.endStep_rsp (s : State) : s.endStep.rsp = s.rsp := rfl
@[simp] theorem State.endStep_ret (s : State) : s.endStep.ret = s.ret := rfl
@[simp] theorem State.endStep_inbox (s : State) : s.endStep.inbox = s.inbox := rfl
@[simp] theorem State.endStep_times (s : State) : s.endStep.times = s.times.tail := rfl
@[simp] theorem State.endStep_steps (s : State) : s.endStep.steps = s.steps + 1 := rfl

/-! ### `State.resetBlock` -/

@[simp] theorem State.resetBlock_wbuf (s : State) : s.resetBlock.wbuf = [] := rfl
@[simp] theorem State.resetBlock_hist (s : State) : s.resetBlock.hist = [] := rfl
@[simp] theorem State.resetBlock_errorCount (s : State) : s.resetBlock.errorCount = 0#32 := rfl
@[simp] theorem State.resetBlock_lastReceiveTime (s : State) : s.resetBlock.lastReceiveTime = 0#32 := rfl
@[simp] theorem State.resetBlock_ghost (s : State) : s.resetBlock.ghost = Ghost.zero := rfl
@[simp] theorem State.resetBlock_event (s : State) : s.resetBlock.event = Event.none := rfl
@[simp] theorem State.resetBlock_rsp (s : State) : s.resetBlock.rsp = Response.none := rfl
@[simp] theorem State.resetBlock_ret (s : State) : s.resetBlock.ret = Ret.none := rfl
@[simp] theorem State.resetBlock_inbox (s : State) : s.resetBlock.inbox = s.inbox := rfl
@[simp] theorem State.resetBlock_times (s : State) : s.resetBlock.times = s.times := rfl
@[simp] theorem State.resetBlock_steps (s : State) : s.resetBlock.steps = s.steps := rfl

/-! ### `State.popInbox` -/

@[simp] theorem State.popInbox_wbuf (s : State) : s.popInbox.wbuf = s.wbuf := rfl
@[simp] theorem State.popInbox_hist (s : State) : s.popInbox.hist = s.hist := rfl
@[simp] theorem State.popInbox_errorCount (s : State) : s.popInbox.errorCount = s.errorCount := rfl
@[simp] theorem State.popInbox_lastReceiveTime (s : State) : s.popInbox.lastReceiveTime = s.lastReceiveTime := rfl
@[simp] theorem State.popInbox_ghost (s : State) : s.popInbox.ghost = s.ghost := rfl
@[simp] theorem State.popInbox_event (s : State) : s.popInbox.event = s.event := rfl
@[simp] theorem State.popInbox_rsp (s : State) : s.popInbox.rsp = s.rsp := rfl
@[simp] theorem State.popInbox_ret (s : State) : s.popInbox.ret = s.ret := rfl
@[simp] theorem State.popInbox_inbox (s : State) : s.popInbox.inbox = s.inbox.tail := rfl
@[simp] theorem State.popInbox_times (s : State) : s.popInbox.times = s.times := rfl
@[simp] theorem State.popInbox_steps (s : State) : s.popInbox.steps = s.steps := rfl

end Sys2Proof.Machine
end

