-- ==== Sys2Proof/Laws/Ops.lean ====
section
/-! SUPPORT. For each shared operation one lemma that says once everything it can do. -/

namespace Sys2Proof.Machine

/-! ### Sequencing -/

@[simp] theorem andThen_next (s : State) (f : State → Result) : andThen (.next s) f = f s := rfl

@[simp] theorem andThen_fault (e : Fault) (f : State → Result) : andThen (.fault e) f = .fault e := rfl

@[simp] theorem andThen_refused (e : Refusal) (f : State → Result) : andThen (.refused e) f = .refused e := rfl

/-- If a sequence answers a next state, so did its first part. -/
theorem andThen_eq_next {r : Result} {f : State → Result} {t : State} (h : andThen r f = .next t) :
    ∃ s, r = .next s ∧ f s = .next t := by
  cases r with
  | next s => exact ⟨s, rfl, h⟩
  | fault e => cases h
  | refused e => cases h

theorem andThen_assoc (r : Result) (f g : State → Result) :
    andThen (andThen r f) g = andThen r (fun s => andThen (f s) g) := by
  cases r <;> rfl

/-! ### The counter -/

/-- The saturating count in numbers (R199, R200). -/
theorem saturatingSucc_toNat {w : Nat} (c : BitVec w) (hw : 0 < w) :
    (saturatingSucc c).toNat = min (c.toNat + 1) (2 ^ w - 1) := by
  have hc := c.isLt
  have h2 : 2 ≤ 2 ^ w := by
    calc 2 = 2 ^ 1 := rfl
      _ ≤ 2 ^ w := Nat.pow_le_pow_right (by omega) hw
  unfold saturatingSucc
  split
  · rw [BitVec.toNat_add, BitVec.toNat_ofNat, Nat.mod_eq_of_lt (a := 1) (by omega), Nat.mod_eq_of_lt (by omega)]
    omega
  · omega

/-- The saturating count of `error_count` in numbers (R199, R200). -/
theorem saturatingSucc_errorCount (c : BitVec Config.errW) :
    (saturatingSucc c).toNat = min (c.toNat + 1) 4294967295 := saturatingSucc_toNat c (by decide)

/-- A count that is the number of rejections up to the greatest value stays so (R200). -/
theorem saturatingSucc_of_min {c : BitVec Config.errW} {n : Nat} (h : c.toNat = min n 4294967295) :
    (saturatingSucc c).toNat = min (n + 1) 4294967295 := by
  rw [saturatingSucc_errorCount, h]; omega

/-- The count never falls (R200). -/
theorem le_saturatingSucc {w : Nat} (c : BitVec w) : c.toNat ≤ (saturatingSucc c).toNat := by
  rcases Nat.eq_zero_or_pos w with rfl | hw
  · have := c.isLt; simp at this; omega
  · rw [saturatingSucc_toNat c hw]; have := c.isLt; omega

/-! ### The stores -/

/-- A push never makes more than ten records of at most ten (R193). -/
theorem pushRecord_length {h : List Record} (r : Record) (hh : h.length ≤ 10) : (pushRecord h r).length ≤ 10 := by
  unfold pushRecord Config.capacity
  split <;> simp <;> omega

/-- What a push holds was held before or is the new record (R191). -/
theorem mem_pushRecord {h : List Record} {r x : Record} (hx : x ∈ pushRecord h r) : x ∈ h ∨ x = r := by
  unfold pushRecord at hx
  split at hx
  · rcases List.mem_append.1 hx with h' | h'
    · exact .inl (List.mem_of_mem_drop h')
    · exact .inr (by simpa using h')
  · rcases List.mem_append.1 hx with h' | h'
    · exact .inl h'
    · exact .inr (by simpa using h')

/-- A push keeps the last ten (R192). -/
theorem pushRecord_eq_drop {h : List Record} (r : Record) (hh : h.length ≤ 10) :
    pushRecord h r = (h ++ [r]).drop (h.length + 1 - 10) := by
  unfold pushRecord Config.capacity
  split
  · next he => rw [he]; rw [List.drop_append_of_le_length (by omega)]
  · rw [show h.length + 1 - 10 = 0 by omega]; rfl

/-- A push as the statements write it: the oldest goes when ten are held (R191). -/
theorem pushRecord_eq_tail (h : List Record) (r : Record) :
    pushRecord h r = (if h.length = 10 then h.tail else h) ++ [r] := by
  simp [pushRecord]

/-- `APPEND` completes below 17 bytes and faults otherwise (R111). -/
theorem append_of_le {s : State} (d : Byte) (h : s.wlen ≤ 16) : append d s = .next (s.appendByte d) := if_pos h

theorem append_of_gt {s : State} (d : Byte) (h : 17 ≤ s.wlen) : append d s = .fault .appendWithoutRoom :=
  if_neg (by omega)

theorem append_eq_next {s t : State} {d : Byte} (h : append d s = .next t) : s.wlen ≤ 16 ∧ t = s.appendByte d := by
  unfold append at h
  split at h
  · next hw => cases h; exact ⟨hw, rfl⟩
  · cases h

@[simp] theorem State.appendByte_wlen (s : State) (d : Byte) : (s.appendByte d).wlen = s.wlen + 1 := by
  simp [State.wlen]

@[simp] theorem State.dropBytes_wlen (s : State) (k : Nat) : (s.dropBytes k).wlen = s.wlen - k := by
  simp [State.wlen]

/-! ### Rejection and acceptance, field by field -/

/-- A rejection's counted error (R247). -/
theorem reject_errorCount (cs : Bool) (k : Rejection) (s : State) :
    (reject cs k s).errorCount = if rejectionCounted cs k then saturatingSucc s.errorCount else s.errorCount := by
  unfold reject; dsimp only; split <;> rfl

@[simp] theorem reject_wbuf (cs : Bool) (k : Rejection) (s : State) : (reject cs k s).wbuf = s.wbuf.drop 1 := by
  unfold reject; dsimp only; split <;> rfl

@[simp] theorem reject_hist (cs : Bool) (k : Rejection) (s : State) : (reject cs k s).hist = s.hist := by
  unfold reject; dsimp only; split <;> rfl

@[simp] theorem reject_lastReceiveTime (cs : Bool) (k : Rejection) (s : State) :
    (reject cs k s).lastReceiveTime = s.lastReceiveTime := by
  unfold reject; dsimp only; split <;> rfl

@[simp] theorem reject_event (cs : Bool) (k : Rejection) (s : State) : (reject cs k s).event = rejectionEvent k := by
  unfold reject; dsimp only; split <;> rfl

@[simp] theorem reject_rsp (cs : Bool) (k : Rejection) (s : State) : (reject cs k s).rsp = s.rsp := by
  unfold reject; dsimp only; split <;> rfl

@[simp] theorem reject_ret (cs : Bool) (k : Rejection) (s : State) : (reject cs k s).ret = s.ret := by
  unfold reject; dsimp only; split <;> rfl

@[simp] theorem reject_inbox (cs : Bool) (k : Rejection) (s : State) : (reject cs k s).inbox = s.inbox := by
  unfold reject; dsimp only; split <;> rfl

@[simp] theorem reject_times (cs : Bool) (k : Rejection) (s : State) : (reject cs k s).times = s.times := by
  unfold reject; dsimp only; split <;> rfl

@[simp] theorem reject_steps (cs : Bool) (k : Rejection) (s : State) : (reject cs k s).steps = s.steps := by
  unfold reject; dsimp only; split <;> rfl

theorem rejectionEvent_ne_none (k : Rejection) : rejectionEvent k ≠ .none := by cases k <;> simp [rejectionEvent]

/-- A counted rejection, whole (R247). -/
theorem reject_true (k : Rejection) (s : State) :
    reject true k s =
      { s with
        wbuf := s.wbuf.drop 1, errorCount := saturatingSucc s.errorCount, event := rejectionEvent k,
        ghost := { s.ghost with nOut := s.ghost.nOut + 1, nErr := s.ghost.nErr + 1, events := s.ghost.events ++ [rejectionEvent k] } } := by
  cases k <;> simp [reject, rejectionCounted, State.emit, State.recErr, State.dropBytes, rejectionEvent]

/-- An acceptance, whole (R112 step 4, R223). -/
theorem acceptFrame_eq (c : List Byte) (s : State) :
    acceptFrame c s =
      { s with
        wbuf := s.wbuf.drop 17, hist := pushRecord s.hist (decodeRecord c), lastReceiveTime := s.now,
        event := .accept (decodeRecord c),
        ghost := { s.ghost with nOut := s.ghost.nOut + 17, nAcc := s.ghost.nAcc + 1, events := s.ghost.events ++ [.accept (decodeRecord c)] } } := by
  simp [acceptFrame, State.emit, State.countAccepted, State.dropBytes, State.touch, State.push, State.now]

/-! ### One pass of EXTRACT -/

/-- The verdict of a buffer's first 17 bytes begins with its head. -/
theorem validate_take_head (s : State) :
    byteAt s.wbuf 0 ≠ 0xAA#8 ↔ validate (s.wbuf.take 17) = .rejStart := by
  have h0 : byteAt (s.wbuf.take 17) 0 = byteAt s.wbuf 0 := by
    simp [byteAt]
  unfold validate
  rw [h0]
  constructor
  · intro hne; exact if_pos hne
  · intro hv hne
    rw [if_neg (by simpa using hne)] at hv
    split at hv
    · cases hv
    · split at hv <;> cases hv

/-- Below 17 bytes a pass waits (R112 step 1, R113). -/
theorem extractPass_wait (cs : Bool) {s : State} (h : s.wlen < 17) : extractPass cs s = (s.emit .none, .wait) := if_pos h

/-- With 17 bytes or more a pass does what VALIDATE of the first 17 says (R112 steps 2 to 4, R135). -/
theorem extractPass_act (cs : Bool) {s : State} (h : 17 ≤ s.wlen) :
    extractPass cs s =
      match validate (s.wbuf.take 17) with
      | .accept => (acceptFrame (s.wbuf.take 17) s, .accepted)
      | .rejStart => (reject cs .start s, .dropped)
      | .rejEnd => (reject cs .endMark s, .dropped)
      | .rejChk => (reject cs .checksum s, .dropped) := by
  unfold extractPass
  rw [if_neg (by simp only [Config.frameLen]; omega)]
  split
  · next hne => rw [(validate_take_head s).1 hne]
  · rfl

/-- Everything a pass can do: wait, drop one byte, or take a frame (R112). -/
theorem extractPass_cases (cs : Bool) (s : State) :
    (s.wlen < 17 ∧ extractPass cs s = (s.emit .none, .wait)) ∨
    (17 ≤ s.wlen ∧ (∃ k, extractPass cs s = (reject cs k s, .dropped)) ∧ validate (s.wbuf.take 17) ≠ .accept) ∨
    (17 ≤ s.wlen ∧ validate (s.wbuf.take 17) = .accept ∧
      extractPass cs s = (acceptFrame (s.wbuf.take 17) s, .accepted)) := by
  by_cases h : s.wlen < 17
  · exact .inl ⟨h, extractPass_wait cs h⟩
  · have h' : 17 ≤ s.wlen := by omega
    right
    rw [extractPass_act cs h']
    cases hv : validate (s.wbuf.take 17) with
    | accept => exact .inr ⟨h', rfl, rfl⟩
    | rejStart => exact .inl ⟨h', ⟨_, rfl⟩, by simp⟩
    | rejEnd => exact .inl ⟨h', ⟨_, rfl⟩, by simp⟩
    | rejChk => exact .inl ⟨h', ⟨_, rfl⟩, by simp⟩

/-! ### RXB -/

/-- `RXB` completes below 17 bytes (R220). -/
theorem receiveByte_of_le {s : State} (d : Byte) (h : s.wlen ≤ 16) :
    receiveByte d s = .next (extract (s.appendByte d)).1 := by
  simp [receiveByte, append_of_le d h]

theorem receiveByte_eq_next {s t : State} {d : Byte} (h : receiveByte d s = .next t) :
    s.wlen ≤ 16 ∧ t = (extract (s.appendByte d)).1 := by
  obtain ⟨a, ha, ht⟩ := andThen_eq_next h
  obtain ⟨hw, rfl⟩ := append_eq_next ha
  cases ht
  exact ⟨hw, rfl⟩

/-- Everything `RXB` can do between operations: hold, drop one byte, or accept (R216). -/
theorem receiveByte_cases {s t : State} {d : Byte} (h : receiveByte d s = .next t) :
    (s.wlen ≤ 15 ∧ t = (s.appendByte d).emit .none) ∨
    (s.wlen = 16 ∧ ∃ k, t = reject true k (s.appendByte d)) ∨
    (s.wlen = 16 ∧ validate (s.wbuf ++ [d]) = .accept ∧ t = acceptFrame (s.wbuf ++ [d]) (s.appendByte d)) := by
  obtain ⟨hw, rfl⟩ := receiveByte_eq_next h
  have htake : s.wlen = 16 → (s.appendByte d).wbuf.take 17 = s.wbuf ++ [d] := by
    intro h16; apply List.take_of_length_le; simp [State.wlen] at h16; simp [h16]
  rcases extractPass_cases true (s.appendByte d) with ⟨hl, he⟩ | ⟨hl, ⟨k, he⟩, -⟩ | ⟨hl, hv, he⟩
  · exact .inl ⟨by simp at hl; omega, congrArg Prod.fst he⟩
  · exact .inr (.inl ⟨by simp at hl; omega, k, congrArg Prod.fst he⟩)
  · have h16 : s.wlen = 16 := by simp at hl; omega
    rw [htake h16] at hv he
    exact .inr (.inr ⟨h16, hv, congrArg Prod.fst he⟩)

/-! ### Draining: `drain` is one extraction after another until fewer than seventeen bytes are held -/

/-- An extraction of a full window leaves a strictly shorter buffer (a drop takes one byte, an acceptance seventeen). -/
theorem extract_wlen_lt {s : State} (h : 17 ≤ s.wlen) : (extract s).1.wlen < s.wlen := by
  rcases extractPass_cases true s with ⟨hl, he⟩ | ⟨hl, ⟨k, he⟩, -⟩ | ⟨hl, hv, he⟩
  · omega
  · rw [show extract s = _ from he]; simp [State.wlen] at *; omega
  · rw [show extract s = _ from he, acceptFrame_eq]; simp [State.wlen] at *; omega

/-- Any fuel above the number of held bytes gives the loop the same answer. -/
theorem drainLoop_fuel (f f' : Nat) (s : State) (h : s.wlen < f) (h' : s.wlen < f') : drainLoop f s = drainLoop f' s := by
  induction f generalizing f' s with
  | zero => omega
  | succ f ih =>
    cases f' with
    | zero => omega
    | succ f' =>
      unfold drainLoop
      rcases extractPass_cases true s with ⟨hl, he⟩ | ⟨hl, ⟨k, he⟩, -⟩ | ⟨hl, hv, he⟩
      · rw [show extract s = _ from he]
      all_goals
        have hw := extract_wlen_lt hl
        rw [show extract s = _ from he] at hw ⊢
        exact ih _ _ (by simp only at hw; omega) (by simp only at hw; omega)

/-- Draining a short buffer only waits. -/
theorem drain_wait {s : State} (h : s.wlen < 17) : drain s = s.emit .none := by
  unfold drain drainLoop; rw [show extract s = _ from extractPass_wait true h]

/-- Draining a full window is one extraction and then draining. -/
theorem drain_act {s : State} (h : 17 ≤ s.wlen) : drain s = drain (extract s).1 := by
  have hw := extract_wlen_lt h
  have hd : drain s = drainLoop s.wlen (extract s).1 := by
    conv_lhs => unfold drain drainLoop
    rcases extractPass_cases true s with ⟨hl, he⟩ | ⟨hl, ⟨k, he⟩, -⟩ | ⟨hl, hv, he⟩
    · omega
    all_goals rw [show extract s = _ from he]
  rw [hd]; exact drainLoop_fuel _ _ _ hw (by omega)

/-- Induction along a drain: show it of the waiting end and carry it back over one extraction. -/
theorem drain_induct {P : State → State → Prop} (hwait : ∀ s, s.wlen < 17 → P s (s.emit .none))
    (hact : ∀ s, 17 ≤ s.wlen → P (extract s).1 (drain (extract s).1) → P s (drain (extract s).1)) (s : State) :
    P s (drain s) := by
  generalize hn : s.wlen = n
  induction n using Nat.strong_induction_on generalizing s with
  | _ n ih =>
    by_cases h : s.wlen < 17
    · rw [drain_wait h]; exact hwait s h
    · rw [drain_act (by omega)]
      exact hact s (by omega) (ih _ (by have := extract_wlen_lt (s := s) (by omega); omega) _ rfl)

/-! ### Steps -/

/-- A step performs the C port operation, then the RX port operation (R226). -/
theorem runStep_eq (cOp rxOp : State → Result) (s : State) :
    runStep cOp rxOp s = andThen (andThen (cOp s.beginStep) rxOp) fun t => .next t.endStep := rfl

/-- If a step answers a next state, so did both its operations. -/
theorem runStep_eq_next {cOp rxOp : State → Result} {s t : State} (h : runStep cOp rxOp s = .next t) :
    ∃ a b, cOp s.beginStep = .next a ∧ rxOp a = .next b ∧ t = b.endStep := by
  rw [runStep_eq] at h
  obtain ⟨b, hb, ht⟩ := andThen_eq_next h
  obtain ⟨a, ha, hb⟩ := andThen_eq_next hb
  cases ht
  exact ⟨a, b, ha, hb, rfl⟩

/-- What the operation a C word stands for leaves: `CLR` empties the history, and the response is set (R41, R255). -/
def State.afterC (s : State) (w : BitVec 3) : State :=
  { s with
    hist := if w = 0b111#3 then [] else s.hist
    rsp := if w = 0b100#3 then .snapshot s.hist
      else if w = 0b101#3 then .errorCount s.errorCount
      else if w = 0b110#3 then .lastRxTime s.lastReceiveTime
      else .none }

@[simp] theorem State.afterC_wbuf (s : State) (w : BitVec 3) : (s.afterC w).wbuf = s.wbuf := rfl

@[simp] theorem State.afterC_errorCount (s : State) (w : BitVec 3) : (s.afterC w).errorCount = s.errorCount := rfl

@[simp] theorem State.afterC_lastReceiveTime (s : State) (w : BitVec 3) : (s.afterC w).lastReceiveTime = s.lastReceiveTime := rfl

@[simp] theorem State.afterC_ghost (s : State) (w : BitVec 3) : (s.afterC w).ghost = s.ghost := rfl

@[simp] theorem State.afterC_event (s : State) (w : BitVec 3) : (s.afterC w).event = s.event := rfl

@[simp] theorem State.afterC_ret (s : State) (w : BitVec 3) : (s.afterC w).ret = s.ret := rfl

@[simp] theorem State.afterC_inbox (s : State) (w : BitVec 3) : (s.afterC w).inbox = s.inbox := rfl

@[simp] theorem State.afterC_times (s : State) (w : BitVec 3) : (s.afterC w).times = s.times := rfl

@[simp] theorem State.afterC_steps (s : State) (w : BitVec 3) : (s.afterC w).steps = s.steps := rfl

theorem State.afterC_hist (s : State) (w : BitVec 3) :
    (s.afterC w).hist = if w = 0b111#3 then [] else s.hist := rfl

@[simp] theorem State.afterC_wlen (s : State) (w : BitVec 3) : (s.afterC w).wlen = s.wlen := rfl

/-- The operation a C word stands for always completes (R85, R194 to R204). -/
theorem exec_decodeC (w : BitVec 3) (s : State) : exec (decodeC w) s = .next (s.afterC w) := by
  have hw : w = 0#3 ∨ w = 1#3 ∨ w = 2#3 ∨ w = 3#3 ∨ w = 4#3 ∨ w = 5#3 ∨ w = 6#3 ∨ w = 7#3 := by
    revert w; decide
  rcases hw with rfl | rfl | rfl | rfl | rfl | rfl | rfl | rfl <;> rfl

/-- The operation an RX word stands for is `RXB` of its byte or `RXIDLE` (R84). -/
theorem exec_decodeRx (w : BitVec 9) (s : State) :
    exec (decodeRx w) s =
      if w.getLsbD 8 then receiveByte (w.extractLsb' 0 8) s else .next (s.emit .none) := by
  unfold decodeRx; split <;> rfl

/-- Everything a step can do (R226, R227). -/
theorem step_eq (s : State) :
    step s =
      if s.nextPins.rst then .next s.popInbox.beginStep.resetBlock.endStep
      else
        andThen (exec (decodeRx s.nextPins.rxWord) (s.popInbox.beginStep.afterC s.nextPins.cWord))
          fun b => .next b.endStep := by
  unfold step cycle stepPins
  split
  · rfl
  · rw [runStep_eq, exec_decodeC, andThen_next]

/-- Everything a step can answer: the reset state; or what the C port operation leaves, held or given to `RXB`
(R226, R227). -/
theorem step_cases {s t : State} (h : step s = .next t) :
    (s.nextPins.rst = true ∧ t = s.popInbox.beginStep.resetBlock.endStep) ∨
    (s.nextPins.rst = false ∧ s.nextPins.rxWord.getLsbD 8 = false ∧
      t = ((s.popInbox.beginStep.afterC s.nextPins.cWord).emit .none).endStep) ∨
    (s.nextPins.rst = false ∧ s.nextPins.rxWord.getLsbD 8 = true ∧
      ∃ b, receiveByte (s.nextPins.rxWord.extractLsb' 0 8) (s.popInbox.beginStep.afterC s.nextPins.cWord) = .next b ∧
        t = b.endStep) := by
  rw [step_eq] at h
  split at h
  · next hr => cases h; exact .inl ⟨hr, rfl⟩
  · next hr =>
    obtain ⟨b, hb, h⟩ := andThen_eq_next h
    cases h
    have hr' : s.nextPins.rst = false := by simpa using hr
    rw [exec_decodeRx] at hb
    split at hb
    · next h8 => exact .inr (.inr ⟨hr', h8, b, hb, rfl⟩)
    · next h8 => cases hb; exact .inr (.inl ⟨hr', by simpa using h8, rfl⟩)

/-- What the environment presents when its schedule is not empty. -/
theorem nextPins_of_inbox {s : State} {p : Pins} {rest : List Pins} (h : s.inbox = p :: rest) : s.nextPins = p := by
  simp [State.nextPins, h]

/-! ### Placing a word for the next step -/

/-- Placing a nine-bit word places it on the RX port of the next step. -/
theorem withFetchWord_rx (s : State) (w : BitVec 9) :
    s.withFetchWord 9 w.toNat = { s with inbox := { rst := false, cWord := 0, rxWord := w } :: s.inbox } := by
  have hw : w.toNat < 512 := w.isLt
  simp [State.withFetchWord, State.present, tableWord, codePins, State.presentCode, hw]

/-- Placing a three-bit word places it on the C port of the next step. -/
theorem withFetchWord_c (s : State) (w : BitVec 3) :
    s.withFetchWord 3 w.toNat = { s with inbox := { rst := false, cWord := w, rxWord := 0 } :: s.inbox } := by
  have hw : w.toNat < 8 := w.isLt
  simp [State.withFetchWord, State.present, tableWord, codePins, State.presentCode, hw]

/-! ### Runs -/

/-- A run of no steps stays where it is. -/
theorem core_run_zero (s : State) : Host.Core.run Sys2Proof.core 0 s = .next s := rfl

/-- A run of `k + 1` steps is a step and a run of `k`. -/
theorem core_run_succ (k : Nat) (s : State) :
    Host.Core.run Sys2Proof.core (k + 1) s = andThen (step s) (fun t => Host.Core.run Sys2Proof.core k t) := by
  have hn : ∀ (M : Host.Core) (x y : M.State), M.step x = .next y → M.run (k + 1) x = M.run k y := by
    intro M x y h; rw [Host.Core.run, h]
  have hf : ∀ (M : Host.Core) (x : M.State) (e : M.Fault), M.step x = .fault e → M.run (k + 1) x = .fault e := by
    intro M x e h; rw [Host.Core.run, h]
  have hr : ∀ (M : Host.Core) (x : M.State) (e : M.Refusal), M.step x = .refused e → M.run (k + 1) x = .refused e := by
    intro M x e h; rw [Host.Core.run, h]
  cases hs : step s with
  | next t => exact hn Sys2Proof.core s t hs
  | fault e => exact hf Sys2Proof.core s e hs
  | refused e => exact hr Sys2Proof.core s e hs

end Sys2Proof.Machine
end

