-- ==== Sys2Proof/Laws/Memory.lean ====
section
/-! SUPPORT. Every memory operation keeps the canonical form of the two stores (`Memory.wf`), and the reset state has it. -/

namespace Sys2Proof.Machine

/-- The canonical form, said once (R21, R26, R27). -/
theorem Memory.wf_iff (s : State) :
    Memory.wf s = true ↔ s.wlen ≤ 17 ∧ s.hlen ≤ 10 ∧ ∀ r ∈ s.hist, r.wf = true := by
  simp [Memory.wf, and_assoc]

/-- The form reads the two stores only. -/
theorem Memory.wf_congr {s t : State} (hw : t.wbuf = s.wbuf) (hh : t.hist = s.hist) : Memory.wf t = Memory.wf s := by
  unfold Memory.wf State.wlen State.hlen
  rw [hw, hh]

theorem Memory.wf_reset : Memory.wf State.reset = true := by decide

theorem Memory.wf_appendByte {s : State} (d : Byte) (h : Memory.wf s = true) (hw : s.wlen ≤ 16) :
    Memory.wf (s.appendByte d) = true := by
  rw [Memory.wf_iff] at h ⊢
  exact ⟨by rw [State.appendByte_wlen]; omega, h.2⟩

theorem Memory.wf_dropBytes {s : State} (k : Nat) (h : Memory.wf s = true) : Memory.wf (s.dropBytes k) = true := by
  rw [Memory.wf_iff] at h ⊢
  exact ⟨by rw [State.dropBytes_wlen]; omega, h.2⟩

theorem Memory.wf_push {s : State} {r : Record} (h : Memory.wf s = true) (hr : r.wf = true) :
    Memory.wf (s.push r) = true := by
  rw [Memory.wf_iff] at h ⊢
  refine ⟨h.1, pushRecord_length r h.2.1, fun x hx => ?_⟩
  rcases mem_pushRecord hx with hx | rfl
  · exact h.2.2 x hx
  · exact hr

theorem Memory.wf_clearHist {s : State} (h : Memory.wf s = true) : Memory.wf s.clearHist = true := by
  rw [Memory.wf_iff] at h ⊢
  exact ⟨h.1, Nat.zero_le _, by simp [State.clearHist]⟩

theorem Memory.wf_resetBlock (s : State) : Memory.wf s.resetBlock = true :=
  (Memory.wf_congr (s := State.reset) rfl rfl).trans Memory.wf_reset

/-- `MemWrite` to the working buffer changes no length (R15). -/
theorem Memory.wf_memWriteWbuf {s t : State} {i : Nat} {v : List Byte} (h : Memory.wf s = true)
    (ht : s.memWriteWbuf i v = some t) : Memory.wf t = true := by
  unfold State.memWriteWbuf at ht
  split at ht
  · next hi =>
    cases ht
    rw [Memory.wf_iff] at h ⊢
    refine ⟨?_, h.2⟩
    simp only [State.wlen, List.length_append, List.length_take, List.length_drop] at *
    omega
  · cases ht

/-- `MemWrite` of records to the history changes no length (R15). -/
theorem Memory.wf_memWriteHist {s t : State} {i : Nat} {v : List Record} (h : Memory.wf s = true)
    (hv : ∀ r ∈ v, r.wf = true) (ht : s.memWriteHist i v = some t) : Memory.wf t = true := by
  unfold State.memWriteHist at ht
  split at ht
  · next hi =>
    cases ht
    rw [Memory.wf_iff] at h ⊢
    refine ⟨h.1, ?_, fun x hx => ?_⟩
    · simp only [State.hlen, List.length_append, List.length_take, List.length_drop] at *
      omega
    · rcases List.mem_append.1 hx with hx | hx
      · rcases List.mem_append.1 hx with hx | hx
        · exact h.2.2 x (List.mem_of_mem_take hx)
        · exact hv x hx
      · exact h.2.2 x (List.mem_of_mem_drop hx)
  · cases ht

theorem Memory.wf_reject {s : State} (cs : Bool) (k : Rejection) (h : Memory.wf s = true) :
    Memory.wf (reject cs k s) = true :=
  (Memory.wf_congr (s := s.dropBytes 1) (by simp) (by simp)).trans (Memory.wf_dropBytes 1 h)

theorem Memory.wf_acceptFrame {s : State} (c : List Byte) (h : Memory.wf s = true) :
    Memory.wf (acceptFrame c s) = true :=
  (Memory.wf_congr (s := ((s.push (decodeRecord c)).touch).dropBytes 17) rfl rfl).trans
    (Memory.wf_dropBytes 17 ((Memory.wf_congr rfl rfl).trans (Memory.wf_push h (decodeRecord_wf c))))

theorem Memory.wf_extractPass {s : State} (cs : Bool) (h : Memory.wf s = true) :
    Memory.wf (extractPass cs s).1 = true := by
  rcases extractPass_cases cs s with ⟨-, he⟩ | ⟨-, ⟨k, he⟩, -⟩ | ⟨-, -, he⟩
  · rw [he]; exact (Memory.wf_congr rfl rfl).trans h
  · rw [he]; exact Memory.wf_reject cs k h
  · rw [he]; exact Memory.wf_acceptFrame _ h

theorem Memory.wf_drainLoop (fuel : Nat) {s : State} (h : Memory.wf s = true) : Memory.wf (drainLoop fuel s) = true := by
  induction fuel generalizing s with
  | zero => exact h
  | succ fuel ih =>
    have he := Memory.wf_extractPass Config.countStartMiss h
    unfold drainLoop extract
    rcases hp : extractPass Config.countStartMiss s with ⟨u, p⟩
    rw [hp] at he
    cases p with
    | wait => exact he
    | dropped => exact ih he
    | accepted => exact ih he

theorem Memory.wf_drain {s : State} (h : Memory.wf s = true) : Memory.wf (drain s) = true := Memory.wf_drainLoop _ h

theorem Memory.wf_append {s t : State} {d : Byte} (h : Memory.wf s = true) (ht : append d s = .next t) :
    Memory.wf t = true := by
  obtain ⟨hw, rfl⟩ := append_eq_next ht
  exact Memory.wf_appendByte d h hw

theorem Memory.wf_receiveByte {s t : State} {d : Byte} (h : Memory.wf s = true) (ht : receiveByte d s = .next t) :
    Memory.wf t = true := by
  obtain ⟨hw, rfl⟩ := receiveByte_eq_next ht
  exact Memory.wf_extractPass _ (Memory.wf_appendByte d h hw)

end Sys2Proof.Machine
end

