-- ==== Sys2Proof/Laws/PerInstr.lean ====
section
/-! SUPPORT. Per-instruction family `NotRejected`: the word the encoder writes for an operation is never rejected. -/

namespace Sys2Proof.Laws.NotRejected

open Sys2Proof Sys2Proof.Machine

/-- The decoder rejects no word that the encoder writes for `i`. -/
def Statement (i : Instr) : Prop := ∀ w : CodeWord, encode i = some w → ∃ j : Instr, decode w = .ok j

theorem frame (p : Payload) : Statement (.frame p) := by
  intro w h
  cases h
  have hb := wireBytes_encodeWire p
  have h0 : wireByte (encodeWire p) 0 = 0xAA#8 := congrArg (fun l => l.getD 0 0#8) hb
  have h16 : wireByte (encodeWire p) 16 = 0x55#8 := congrArg (fun l => l.getD 16 0#8) hb
  have h15 : wireByte (encodeWire p) 15 = wireChecksum (encodeWire p) :=
    (congrArg (fun l => l.getD 15 0#8) hb).trans (congrArg (fun l => xorBytes (payloadOf l)) hb).symm
  refine ⟨.frame (wirePayload (encodeWire p)), ?_⟩
  show decodeWire (encodeWire p) = _
  rw [decodeWire, if_pos ((wireMask_iff _).2 ⟨h0, h16⟩), if_pos h15]

theorem rxidle : Statement .rxidle := by intro w h; cases h; exact ⟨_, rfl⟩

theorem rxb (d : Byte) : Statement (.rxb d) := by intro w h; cases h; exact ⟨_, rfl⟩

theorem cnop : Statement .cnop := by intro w h; cases h; exact ⟨_, rfl⟩

theorem snap : Statement .snap := by intro w h; cases h; exact ⟨_, rfl⟩

theorem gerr : Statement .gerr := by intro w h; cases h; exact ⟨_, rfl⟩

theorem glrt : Statement .glrt := by intro w h; cases h; exact ⟨_, rfl⟩

theorem clr : Statement .clr := by intro w h; cases h; exact ⟨_, rfl⟩

theorem reset : Statement .reset := by intro w h; cases h; exact ⟨_, rfl⟩

theorem append (d : Byte) : Statement (.append d) := by intro w h; cases h

theorem extract : Statement .extract := by intro w h; cases h

theorem drain : Statement .drain := by intro w h; cases h

theorem checksum (p : List Byte) : Statement (.checksum p) := by intro w h; cases h

theorem validate (c : List Byte) : Statement (.validate c) := by intro w h; cases h

theorem decode (c : List Byte) : Statement (.decode c) := by intro w h; cases h

theorem imdst (s : Half) : Statement (.imdst s) := by intro w h; cases h

theorem vifcst (v : Half) : Statement (.vifcst v) := by intro w h; cases h

theorem mcust (f : Half) : Statement (.mcust f) := by intro w h; cases h

theorem gear (f : Half) (mv : Bool) : Statement (.gear f mv) := by intro w h; cases h

theorem push (r : Record) : Statement (.push r) := by intro w h; cases h

theorem recerr : Statement .recerr := by intro w h; cases h

theorem touch : Statement .touch := by intro w h; cases h

theorem feed (bs : List Byte) : Statement (.feed bs) := by intro w h; cases h

theorem poll : Statement .poll := by intro w h; cases h

theorem mkframe (a : FrameArgs) : Statement (.mkframe a) := by intro w h; cases h

theorem feedframe (a : FrameArgs) : Statement (.feedframe a) := by intro w h; cases h

end Sys2Proof.Laws.NotRejected
end

