-- ==== Sys2Proof/Tests/Slice0.lean ====
section
/-! SUPPORT. The model's own tests. Words are written out from spec/30_encoding.md R80 to R95, expected results taken from the
vectors of spec/95_test_vectors.md (named V-… below) or worked out by hand from the rules. Each test is one step or one
operation. The witness_… theorems show, for each obligation with hypotheses, values that meet all of them. -/

namespace Sys2Proof.Tests

open Sys2Proof Sys2Proof.Machine

/-- The frame EX of spec/95_test_vectors.md. -/
def ex : List Byte :=
  [0xAA#8, 0x04#8, 0xB0#8, 0x19#8, 0x1E#8, 0x00#8, 0x08#8, 0x00#8, 0x2E#8, 0xE0#8, 0x00#8, 0x00#8, 0x00#8, 0x00#8, 0x03#8,
   0x76#8, 0x55#8]

/-- The payload of EX, field by field (V-X1). -/
def exPayload : Payload :=
  { motorRpm := 1200#16, motorTemp := 25#8, mcuTemp := 30#8, mcuFlags := 8#16, mcuFaultLevel := 0#8,
    imdIsoResistance := 12000#16, imdStatusRaw := 0#16, vifcStatusRaw := 0#16, validity := 3#8 }

/-- The record of EX (V-X1). -/
def exRecord : Record :=
  { motorRpm := 1200#16, motorTemp := 25, mcuTemp := 30, mcuFlags := 8#16, mcuFaultLevel := 0#8,
    imdIsoResistance := 12000#16, imdStatusRaw := 0#16, vifcStatusRaw := 0#16, imdDataValid := true,
    motorDataValid := true, selfTestFailed := false, imdState := .imdOk, vifcState := .isoOn }

/-- The arguments of MKFRAME in V-D4. -/
def d4 : FrameArgs :=
  { rpm := 0x0102#16, mt := -128, ct := 127, flags := 0x8000#16, fault := 255#8, iso := 0x00FF#16, imd := 0x0304#16,
    vifc := 0x0506#16, val := 0x7C#8 }

/-- The reset state with some bytes held. -/
def held (bs : List Byte) : State := { State.reset with wbuf := bs }

/-- The reset state with `n` records of EX. -/
def filled (n : Nat) : State := { State.reset with hist := List.replicate n exRecord }

/-- The words on the two ports, reset low. -/
def ports (c : BitVec 3) (w : BitVec 9) : Pins := { rst := false, cWord := c, rxWord := w }

/-- A state with the words of the next step scheduled and `now` 77 in it. -/
def drive (p : Pins) (s : State) : State := { s with inbox := [p], times := [77#32] }

/-- The next state, if there is one. -/
def nextOf : Result → Option State
  | .next s => some s
  | .fault _ => none
  | .refused _ => none

/-- What an operation returns. -/
def retOf (i : Instr) : Option Ret := (nextOf (exec i State.reset)).map State.ret

/-! ### Well-formedness refuses what it must -/

theorem test_wf_refuses_checksum_of_thirteen_bytes : (Instr.checksum (List.replicate 13 0#8)).wf = false := by decide

theorem test_wf_refuses_validate_of_sixteen_bytes : (Instr.validate (ex.take 16)).wf = false := by decide

theorem test_wf_refuses_decode_of_eighteen_bytes : (Instr.decode (ex ++ [0#8])).wf = false := by decide

theorem test_wf_refuses_motor_temp_128 : (Instr.push { exRecord with motorTemp := 128 }).wf = false := by decide

theorem test_wf_refuses_mcu_temp_below : (Instr.push { exRecord with mcuTemp := -129 }).wf = false := by decide

theorem test_wf_refuses_foreign_imd_state : (Instr.push { exRecord with imdState := .imdWarn }).wf = false := by decide

theorem test_wf_refuses_foreign_vifc_state : (Instr.push { exRecord with vifcState := .vifcOk }).wf = false := by decide

theorem test_wf_refuses_mkframe_temperature : (Instr.mkframe { d4 with mt := -129 }).wf = false := by decide

theorem test_wf_refuses_feedframe_temperature : (Instr.feedframe { d4 with ct := 128 }).wf = false := by decide

theorem test_wf_accepts : (Instr.push exRecord).wf = true ∧ (Instr.mkframe d4).wf = true ∧ (Instr.decode ex).wf = true := by
  decide

/-! ### Words written out from the encoding tables -/

/-- R82, R87: `AA`, `04B0`, `19`, `1E`, `0008`, `00`, `2EE0`, `0000`, `0000`, `03`, `76`, `55` (V-X1). -/
theorem test_decode_frame :
    (decode (.wire 0xAA04B0191E0008002EE000000000037655#136)).toOption = some (.frame exPayload) := by decide

/-- V-D4: no two fields of this frame are alike. -/
theorem test_decode_frame_fields :
    (decode (.wire 0xAA0102807F8000FF00FF030405067C0455#136)).toOption = some (.frame (argsPayload d4)) := by decide

theorem test_decode_rxidle : decodeRx 0b010101010#9 = .rxidle := by decide

theorem test_decode_rxb : decodeRx 0b101100001#9 = .rxb 0x61#8 := by decide

theorem test_decode_cnop : decodeC 0b011#3 = .cnop := by decide

theorem test_decode_snap : decodeC 0b100#3 = .snap := by decide

theorem test_decode_gerr : decodeC 0b101#3 = .gerr := by decide

theorem test_decode_glrt : decodeC 0b110#3 = .glrt := by decide

theorem test_decode_clr : decodeC 0b111#3 = .clr := by decide

theorem test_decode_reset : (decode (.rst 1#1)).toOption = some .reset := by decide

/-- R80: the reset wire low names no operation; a sequence that is not 17 bytes spells no frame. -/
theorem test_decode_rejects :
    (decode (.rst 0#1)).toOption = none ∧ (decodeWindow (ex.take 16)).toOption = none ∧
    (decodeWindow ex).toOption = some (.frame exPayload) := by decide

/-- The numbers of spec/opcode_table.json, in whole bytes (notes/assumptions/10.md). -/
theorem test_decodeTableWord :
    decodeTableWord 136 0xAA04B0191E0008002EE000000000037655 = some (.frame exPayload) ∧
    decodeTableWord 16 0x000 = some .rxidle ∧ decodeTableWord 16 0x155 = some (.rxb 0x55#8) ∧
    decodeTableWord 8 0 = some .cnop ∧ decodeTableWord 8 4 = some .snap ∧ decodeTableWord 8 5 = some .gerr ∧
    decodeTableWord 8 6 = some .glrt ∧ decodeTableWord 8 7 = some .clr ∧ decodeTableWord 8 1 = some .reset ∧
    decodeTableWord 8 8 = none ∧ decodeTableWord 136 0 = none := by decide

/-- The encoder on each encoded row, and on a row of format NONE. -/
theorem test_encode :
    encode (.frame exPayload) = some (.wire 0xAA04B0191E0008002EE000000000037655#136) ∧
    encode .rxidle = some (.rx 0#9) ∧ encode (.rxb 0x61#8) = some (.rx 0b101100001#9) ∧
    encode .cnop = some (.c 0#3) ∧ encode .snap = some (.c 0b100#3) ∧ encode .gerr = some (.c 0b101#3) ∧
    encode .glrt = some (.c 0b110#3) ∧ encode .clr = some (.c 0b111#3) ∧ encode .reset = some (.rst 1#1) ∧
    encode (.append 0#8) = none ∧ encode .poll = none := by decide

/-- R101: a port with no operation named is idle. -/
theorem test_trace_line :
    TraceLine.pins { cOp := some .snap, rxOp := none } = ports 0b100#3 0#9 ∧
    TraceLine.pins { cOp := none, rxOp := some (.rxb 0x55#8) } = ports 0b000#3 0b101010101#9 := by decide

/-! ### withFetchWord and step -/

/-- The frame is accepted in the very next step. -/
theorem test_step_runs_a_frame :
    (nextOf (step (State.reset.withFetchWord 136 0xAA04B0191E0008002EE000000000037655))).map
      (fun t => (t.event, t.hist, t.wbuf)) = some (.accept exRecord, [exRecord], []) := by decide

theorem test_step_runs_rxb :
    (nextOf (step (State.reset.withFetchWord 16 0x1AA))).map State.wbuf = some [0xAA#8] := by decide

theorem test_step_runs_glrt :
    (nextOf (step ({ State.reset with lastReceiveTime := 9#32 }.withFetchWord 8 6))).map State.rsp =
      some (.lastRxTime 9#32) := by decide

/-- V-Z3: reset with RXB AA and SNAP in the same step. -/
theorem test_reset_overrides :
    (nextOf (step (drive { rst := true, cWord := 0b100#3, rxWord := 0b110101010#9 } (held [1#8])))).map
      (fun t => (t.wbuf, t.rsp, t.event)) = some ([], .none, .none) := by decide

/-- V-R2: SNAP with the byte that completes a frame sees the state before it. -/
theorem test_same_step_read :
    (nextOf (step (drive (ports 0b100#3 0b101010101#9) (held (ex.take 16))))).map
      (fun t => (t.rsp, t.event, t.hist.length)) = some (.snapshot [], .accept exRecord, 1) := by decide

/-- V-R3: CLR with the byte that completes a frame. -/
theorem test_same_step_clear :
    (nextOf (step (drive (ports 0b111#3 0b101010101#9) { held (ex.take 16) with hist := [exRecord, exRecord] }))).map
      State.hist = some [exRecord] := by decide

/-- V-R4: GERR with a rejection. -/
theorem test_same_step_count :
    (nextOf (step (drive (ports 0b101#3 0b100000001#9) { held (List.replicate 16 1#8) with errorCount := 4#32 }))).map
      (fun t => (t.rsp, t.event, t.errorCount)) = some (.errorCount 4#32, .errStart, 5#32) := by decide

/-! ### The operations -/

/-- V-A1, V-H7: the last byte of a frame, and `now` 5000. -/
theorem test_rxb_accepts :
    (nextOf (exec (.rxb 0x55#8) { held (ex.take 16) with times := [5000#32] })).map
      (fun t => (t.hist, t.lastReceiveTime, t.wbuf)) = some ([exRecord], 5000#32, []) := by decide

/-- V-A5: a wrong end marker; the head goes, the byte stays. -/
theorem test_rxb_end_marker :
    (nextOf (exec (.rxb 0x54#8) (held (ex.take 16)))).map (fun t => (t.event, t.errorCount, t.wbuf)) =
      some (.errEnd, 1#32, (ex.take 16).drop 1 ++ [0x54#8]) := by decide

theorem test_rxidle : (nextOf (exec .rxidle { State.reset with event := .errEnd })).map State.event = some .none := by decide

theorem test_cnop : (nextOf (exec .cnop { State.reset with rsp := .snapshot [] })).map State.rsp = some .none := by decide

theorem test_snap : (nextOf (exec .snap (filled 2))).map State.rsp = some (.snapshot [exRecord, exRecord]) := by decide

theorem test_gerr :
    (nextOf (exec .gerr { State.reset with errorCount := 17#32 })).map State.rsp = some (.errorCount 17#32) := by decide

theorem test_glrt :
    (nextOf (exec .glrt { State.reset with lastReceiveTime := 116#32 })).map State.rsp = some (.lastRxTime 116#32) := by
  decide

/-- V-H4: CLR keeps the buffer and the counters. -/
theorem test_clr :
    (nextOf (exec .clr { filled 2 with errorCount := 17#32, wbuf := [1#8] })).map
      (fun t => (t.hist, t.errorCount, t.wbuf)) = some ([], 17#32, [1#8]) := by decide

/-- V-Z1. -/
theorem test_reset :
    (nextOf (exec .reset { filled 2 with errorCount := 17#32, lastReceiveTime := 3#32, wbuf := [1#8] })).map
      (fun t => (t.wlen, t.hlen, t.errorCount, t.lastReceiveTime)) = some (0, 0, 0#32, 0#32) := by decide

theorem test_append : (nextOf (exec (.append 7#8) (held [1#8]))).map State.wbuf = some [1#8, 7#8] := by decide

/-- V-V4 in EXTRACT. -/
theorem test_extract_checksum :
    (nextOf (exec .extract (held (ex.set 15 0x77#8)))).map (fun t => (t.event, t.ret, t.wlen)) =
      some (.errChk, .pass .dropped, 16) := by decide

/-- A stray 0xAA and a frame behind it (V-A10's shape): one rejection, one acceptance. -/
theorem test_drain :
    (nextOf (exec .drain { held (0xAA#8 :: ex) with times := [5#32] })).map
      (fun t => (t.wbuf, t.errorCount, t.hist)) = some ([], 1#32, [exRecord]) := by decide

/-- spec/95_test_vectors.md section 3: `01 02 … 0E` gives 0F; the powers of two give FF. -/
theorem test_checksum :
    retOf (.checksum ((List.range 14).map fun n => BitVec.ofNat 8 (n + 1))) = some (.byte 0x0F#8) ∧
    retOf (.checksum [1#8, 2#8, 4#8, 8#8, 16#8, 32#8, 64#8, 128#8, 0#8, 0#8, 0#8, 0#8, 0#8, 0#8]) = some (.byte 0xFF#8) := by
  decide

/-- V-V1 to V-V6, V-V9. -/
theorem test_validate :
    retOf (.validate ex) = some (.verdict .accept) ∧
    retOf (.validate (ex.set 0 0x55#8)) = some (.verdict .rejStart) ∧
    retOf (.validate (ex.set 16 0xAA#8)) = some (.verdict .rejEnd) ∧
    retOf (.validate (ex.set 15 0x77#8)) = some (.verdict .rejChk) ∧
    retOf (.validate (((ex.set 0 0#8).set 15 0#8).set 16 0#8)) = some (.verdict .rejStart) ∧
    retOf (.validate ((ex.set 15 0#8).set 16 0#8)) = some (.verdict .rejEnd) ∧
    retOf (.validate (List.replicate 17 0xAA#8)) = some (.verdict .rejEnd) := by decide

/-- V-X1. -/
theorem test_decode_example : retOf (.decode ex) = some (.record exRecord) := by decide

/-- V-D4. -/
theorem test_decode_order_and_sign :
    retOf (.decode [0xAA#8, 0x01#8, 0x02#8, 0x80#8, 0x7F#8, 0x80#8, 0x00#8, 0xFF#8, 0x00#8, 0xFF#8, 0x03#8, 0x04#8, 0x05#8,
      0x06#8, 0x7C#8, 0x04#8, 0x55#8]) =
    some (.record
      { motorRpm := 258#16, motorTemp := -128, mcuTemp := 127, mcuFlags := 32768#16, mcuFaultLevel := 255#8,
        imdIsoResistance := 255#16, imdStatusRaw := 772#16, vifcStatusRaw := 1286#16, imdDataValid := false,
        motorDataValid := false, selfTestFailed := false, imdState := .imdError, vifcState := .comErr }) := by decide

/-- V-S2. -/
theorem test_imdst :
    [0x0000#16, 0x0002#16, 0x0004#16, 0x0008#16, 0x000C#16, 0x0018#16, 0x0020#16, 0x0024#16, 0x0028#16, 0x0030#16,
      0xFFC0#16].map imdst =
    [.imdOk, .isoError, .imdError, .imdCalib, .imdError, .imdTest, .imdWarn, .imdError, .isoError, .isoError, .imdOk] := by
  decide

/-- V-S3. -/
theorem test_vifcst :
    [0x0000#16, 0x0001#16, 0x0004#16, 0x0010#16, 0x0008#16, 0x0009#16, 0x0101#16, 0x1100#16, 0x1102#16, 0x1001#16, 0x2000#16,
      0xCEE9#16].map vifcst =
    [.isoOn, .vifcOk, .comErr, .comErr, .isoOn, .vifcOk, .stale, .stale, .comErr, .tstErr, .tstErr, .vifcOk] := by decide

/-- V-S4. -/
theorem test_mcust :
    [0x0#16, 0x1#16, 0x3#16, 0x5#16, 0x8#16, 0xF#16, 0xFFF0#16].map mcust =
      [.mcuOk, .mcuBlock, .mcuStop, .mcuLimit, .mcuWarn, .mcuWarn, .mcuOk] := by decide

/-- V-S4. -/
theorem test_gear :
    [0x3#16, 0x4#16, 0xB#16, 0xC#16, 0xFFF0#16].map (fun f => gear f true) = [.n, .r, .d, .blank, .n] ∧
    gear 0x8#16 false = .blank := by decide

/-- The meanings return these functions' values. -/
theorem test_mapping_meanings :
    retOf (.imdst 0x20#16) = some (.imd .imdWarn) ∧ retOf (.vifcst 0x100#16) = some (.vifc .stale) ∧
    retOf (.mcust 2#16) = some (.mcu .mcuStop) ∧ retOf (.gear 4#16 true) = some (.gear .r) := by decide

/-- V-H1: the eleventh push. -/
theorem test_push_evicts :
    (nextOf (exec (.push { exRecord with motorRpm := 7#16 })
      { State.reset with hist := { exRecord with motorRpm := 1#16 } :: List.replicate 9 exRecord })).map State.hist =
    some (List.replicate 9 exRecord ++ [{ exRecord with motorRpm := 7#16 }]) := by decide

/-- V-H6 at the width 2: 0, 1, 2, 3, then 3 again. -/
theorem test_saturation :
    saturatingSucc (w := 2) 2#2 = 3#2 ∧ saturatingSucc (w := 2) 3#2 = 3#2 ∧
    saturatingSucc (w := 32) 0xFFFFFFFF#32 = 0xFFFFFFFF#32 := by decide

theorem test_recerr :
    (nextOf (exec .recerr { State.reset with errorCount := 0xFFFFFFFE#32 })).map (fun t => (t.errorCount, t.ghost.nErr)) =
      some (0xFFFFFFFF#32, 1) := by decide

/-- V-H7: `now` may be earlier than the time held. -/
theorem test_touch :
    (nextOf (exec .touch { State.reset with lastReceiveTime := 5000#32, times := [40#32] })).map State.lastReceiveTime =
      some 40#32 := by decide

/-- V-A12's last byte. -/
theorem test_feed : (nextOf (exec (.feed [0x13#8, 0x37#8]) (held [1#8]))).map State.wbuf = some [1#8, 0x13#8, 0x37#8] := by
  decide

theorem test_poll : (nextOf (exec .poll (held [1#8]))).map (fun t => (t.wbuf, t.steps)) = some ([1#8], 1) := by decide

/-- V-D4. -/
theorem test_mkframe :
    retOf (.mkframe d4) = some (.bytes [0xAA#8, 0x01#8, 0x02#8, 0x80#8, 0x7F#8, 0x80#8, 0x00#8, 0xFF#8, 0x00#8, 0xFF#8,
      0x03#8, 0x04#8, 0x05#8, 0x06#8, 0x7C#8, 0x04#8, 0x55#8]) := by decide

theorem test_feedframe :
    (nextOf (exec (.feedframe d4) State.reset)).map (fun t => (t.wlen, t.hlen, t.steps)) = some (0, 1, 17) := by decide

theorem test_frame : (nextOf (exec (.frame exPayload) State.reset)).map State.hist = some [exRecord] := by decide

/-! ### Memory and outputs -/

/-- R15: a cell beyond `wlen` cannot be read or written. -/
theorem test_cells :
    (held [1#8, 2#8]).memReadWbuf 0 2 = some [1#8, 2#8] ∧ (held [1#8, 2#8]).memReadWbuf 1 2 = none ∧
    ((held [1#8, 2#8]).memWriteWbuf 1 [9#8]).map State.wbuf = some [1#8, 9#8] ∧
    (filled 1).memReadHist 0 2 = none ∧
    ((filled 1).memWriteHist 1 [exRecord]).map State.hist = none := by decide

/-- V-X1: the packed record. -/
theorem test_packRecord : packRecord exRecord = 0x00960323C0010005DC0000000000E#113 := by decide

/-- R36: the outputs of a SNAP step and the continuous ones. -/
theorem test_outputs :
    (nextOf (exec .snap (filled 10))).map (fun t => (t.cRspKind, t.cRspLen, t.hlenO, t.wlenO, t.rxstateO)) =
      some (1#2, 10#4, 10#4, 0#5, 0#2) := by decide

/-- R35, V-X1: the packed record stands beside EV_ACCEPT. -/
theorem test_ev_record :
    (nextOf (exec (.rxb 0x55#8) (held (ex.take 16)))).map (fun t => (t.evKind, t.evRecord)) =
      some (1#3, 0x00960323C0010005DC0000000000E#113) := by decide

/-! ### Witnesses: for each obligation with hypotheses, values that meet all of them together -/

/-- Sixteen bytes, none of them 0xAA. -/
def noise : List Byte := List.replicate 16 0x01#8

/-- EX with offset 2 changed (V-A4). -/
def corrupted : List Byte := ex.set 2 0xB1#8

/-- The state after EX's first 16 bytes in its accounts. -/
def midFrame : State := { held (ex.take 16) with ghost := { Ghost.zero with nIn := 16 } }

/-- One rejection behind it, one acceptance behind it, and bytes held. -/
def afterBoth : State :=
  { held [1#8] with
    hist := [exRecord]
    errorCount := 1#32
    ghost := { nIn := 19, nOut := 18, nAcc := 1, nErr := 1, events := [.errStart, .accept exRecord] } }

theorem witness_ResetOverridesBothPorts :
    ∃ (s : State) (p : Pins) (rest : List Pins), s.inbox = p :: rest ∧ p.rst = true :=
  ⟨drive { rst := true, cWord := 0b111#3, rxWord := 0b101010101#9 } midFrame, _, [], rfl, rfl⟩

theorem witness_StepRunsTheDecodedOperations_next :
    ∃ (s : State) (p : Pins) (rest : List Pins) (t u : State), s.inbox = p :: rest ∧ p.rst = false ∧
      exec (decodeC p.cWord) { s with inbox := rest, event := .none, rsp := .none } = .next t ∧
      exec (decodeRx p.rxWord) t = .next u :=
  ⟨drive (ports 0b111#3 0b101010101#9) midFrame, _, [], _, _, rfl, rfl, rfl, rfl⟩

theorem witness_StepRunsTheDecodedOperations_fault :
    ∃ (s : State) (p : Pins) (rest : List Pins) (t : State) (f : Fault), s.inbox = p :: rest ∧ p.rst = false ∧
      exec (decodeC p.cWord) { s with inbox := rest, event := .none, rsp := .none } = .next t ∧
      exec (decodeRx p.rxWord) t = .fault f :=
  ⟨drive (ports 0b100#3 0b101010101#9) (held ex), _, [], _, _, rfl, rfl, rfl, rfl⟩

theorem witness_StepRunsTheDecodedOperations_idle : State.reset.inbox = [] := rfl

theorem witness_PresentedWordRunsInTheNextStep :
    (∃ t, exec (decodeRx 0b101010101#9) { midFrame with event := .none, rsp := .none } = .next t) ∧
    (∃ t, exec (decodeC 0b111#3) { midFrame with event := .none, rsp := .none } = .next t) :=
  ⟨⟨_, rfl⟩, ⟨_, rfl⟩⟩

/-- The bound of StepAlwaysAnswersANextState, RxbIsAppendThenDrain, ChunkingDoesNotMatter, SameStepReadsSeeTheOldState,
FrameOperationsFeedTheirBytes. -/
theorem witness_wlen_at_the_bound : midFrame.wlen = 16 ∧ State.reset.wlen = 0 := by decide

theorem witness_EveryOperationCompletes :
    (Instr.push exRecord).wf = true ∧ (Instr.checksum (List.replicate 14 0#8)).wf = true ∧ (Instr.validate ex).wf = true ∧
    (Instr.decode ex).wf = true ∧ (Instr.mkframe d4).wf = true ∧ (Instr.feedframe d4).wf = true ∧ midFrame.wlen ≤ 16 := by
  decide

theorem witness_StepKeepsTheStateSafe :
    State.safe { midFrame with hist := List.replicate 10 exRecord, inbox := [ports 0#3 0b101010101#9] } ∧
    ∃ t, step { midFrame with hist := List.replicate 10 exRecord, inbox := [ports 0#3 0b101010101#9] } = .next t :=
  ⟨by decide, _, rfl⟩

theorem witness_StepKeepsTheAccounts :
    State.accounted (drive (ports 0#3 0b101010101#9) midFrame) ∧ State.accounted (drive (ports 0#3 0b101010101#9) afterBoth) ∧
    (∃ t, step (drive (ports 0#3 0b101010101#9) midFrame) = .next t) ∧
    ∃ t, step (drive (ports 0#3 0b101010101#9) afterBoth) = .next t :=
  ⟨by decide, by decide, ⟨_, rfl⟩, ⟨_, rfl⟩⟩

theorem witness_DecodeOfEncodeIsTheInstruction :
    (Instr.frame exPayload).wf = true ∧ (encode (.frame exPayload)).isSome = true ∧ (encode (.rxb 0xFF#8)).isSome = true := by
  decide

theorem witness_decoded_words :
    (∃ i, decode (.wire 0xAA04B0191E0008002EE000000000037655#136) = .ok i) ∧ (∃ i, decode (.rx 0x155#9) = .ok i) ∧
    (∃ i, decode (.c 7#3) = .ok i) ∧ ∃ i, decode (.rst 1#1) = .ok i :=
  ⟨⟨_, rfl⟩, ⟨_, rfl⟩, ⟨_, rfl⟩, ⟨_, rfl⟩⟩

theorem witness_FrameDecoderAgreesWithTheValidator :
    ex.length = 17 ∧ validate ex = .accept ∧ validate (ex.set 0 0#8) = .rejStart ∧ validate (ex.set 16 0#8) = .rejEnd ∧
    validate corrupted = .rejChk := by decide

theorem witness_RxbHoldsAShortBuffer : (held (ex.take 15)).wlen ≤ 15 ∧ State.reset.wlen ≤ 15 := by decide

theorem witness_RxbDropsAHeadThatIsNoStartMarker :
    ∃ (s : State) (h : Byte) (rest : List Byte), s.wbuf = h :: rest ∧ rest.length = 15 ∧ h ≠ 0xAA#8 :=
  ⟨held noise, 0x01#8, noise.drop 1, rfl, rfl, by decide⟩

theorem witness_RxbRejectsAWrongEndMarker :
    ∃ (s : State) (d : Byte) (rest : List Byte), s.wbuf = 0xAA#8 :: rest ∧ rest.length = 15 ∧ d ≠ 0x55#8 :=
  ⟨midFrame, 0x54#8, (ex.take 16).drop 1, rfl, rfl, by decide⟩

theorem witness_RxbRejectsAWrongChecksum :
    ∃ (s : State) (p : List Byte) (k : Byte), s.wbuf = 0xAA#8 :: (p ++ [k]) ∧ p.length = 14 ∧ k ≠ xorBytes p :=
  ⟨held (corrupted.take 16), payloadOf corrupted, 0x76#8, rfl, rfl, by decide⟩

theorem witness_RxbAcceptsAValidFrame :
    ∃ (s : State) (p : List Byte), s.wbuf = 0xAA#8 :: (p ++ [xorBytes p]) ∧ p.length = 14 :=
  ⟨midFrame, payloadOf ex, by decide, rfl⟩

theorem witness_RxStateMovesByTheTable :
    State.reset.wlen = 0 ∧ (held [1#8]).wlen = 1 ∧ (held (ex.take 15)).wlen = 15 ∧ midFrame.wlen = 16 ∧ (held ex).wlen = 17 ∧
    (∃ t, step (drive (ports 0#3 0b101010101#9) midFrame) = .next t) ∧
    (drive (ports 0#3 0b101010101#9) midFrame).inbox = [ports 0#3 0b101010101#9] ∧
    (ports 0#3 0b001010101#9).rxWord.getLsbD 8 = false ∧ (ports 0#3 0b101010101#9).rxWord.getLsbD 8 = true ∧
    validate (midFrame.wbuf ++ [0x55#8]) = .accept ∧ validate (midFrame.wbuf ++ [0x54#8]) ≠ .accept ∧
    validate (noise ++ [0x55#8]) ≠ .accept ∧ validate (corrupted.take 16 ++ [0x55#8]) ≠ .accept :=
  ⟨rfl, rfl, rfl, rfl, rfl, ⟨_, rfl⟩, rfl, rfl, rfl, by decide, by decide, by decide, by decide⟩

theorem witness_AppendPutsTheByteBehind : midFrame.wlen ≤ 16 ∧ 17 ≤ (held ex).wlen := by decide

theorem witness_ExtractMakesOnePass :
    midFrame.wlen < 17 ∧ 17 ≤ (held ex).wlen ∧ validate ((held ex).wbuf.take 17) = .accept ∧
    validate ((held (ex.set 0 0#8)).wbuf.take 17) = .rejStart ∧ validate ((held (ex.set 16 0#8)).wbuf.take 17) = .rejEnd ∧
    validate ((held corrupted).wbuf.take 17) = .rejChk := by decide

theorem witness_FeedIsConsecutiveSteps : ex ≠ [] := by decide

theorem witness_DecodeUndoesMkframe : d4.wf = true ∧ FrameArgs.wf { d4 with mt := 127, ct := -128 } = true := by decide

theorem witness_FrameOperationsFeedTheirBytes :
    ∃ c : List Byte, exec (.mkframe d4) midFrame = .next { midFrame with ret := .bytes c } := ⟨_, rfl⟩

theorem witness_FrameBehindGarbageIsAccepted :
    (held noise).wlen ≤ 16 ∧ (∀ b ∈ (held noise).wbuf, b ≠ 0xAA#8) ∧ State.reset.wlen ≤ 16 ∧
    ∀ b ∈ State.reset.wbuf, b ≠ 0xAA#8 := by decide

theorem witness_BackToBackFramesAreAllAccepted : (filled 10).wbuf = [] ∧ (filled 10).hist.length ≤ 10 := by decide

/-- None of the sixteen windows behind the first of a byte sequence passes VALIDATE (the premise of R123), as a check. -/
def straddleFree (w : List Byte) : Bool := (List.range 16).all fun i => decide (validate ((w.drop (i + 1)).take 17) ≠ .accept)

theorem straddleFree_windows {w : List Byte} (h : straddleFree w = true) (i : Nat) (h1 : 1 ≤ i) (h2 : i ≤ 16) :
    validate ((w.drop i).take 17) ≠ .accept := by
  have hi := List.all_eq_true.1 h (i - 1) (List.mem_range.2 (by omega))
  rw [Nat.sub_add_cancel h1] at hi
  exact of_decide_eq_true hi

/-- The corruptions of V-A4 (offset 2), V-A5 (16), V-A6 (0), V-A7 (15) before a good frame, and a byte that became 0xAA. -/
theorem witness_OneCorruptedPayloadByteLosesOneFrame :
    State.reset.wbuf = [] ∧
    ∀ jb ∈ [(2, 0xB1#8), (16, 0x54#8), (0, 0xAB#8), (15, 0xF6#8), (14, 0xAA#8)], jb.1 ≤ 16 ∧
      (frameBytes exPayload)[jb.1]? ≠ some jb.2 ∧ ∀ i, 1 ≤ i → i ≤ 16 →
        validate ((((frameBytes exPayload).set jb.1 jb.2 ++ frameBytes (argsPayload d4)).drop i).take 17) ≠ .accept := by
  have h : ∀ jb ∈ [(2, 0xB1#8), (16, 0x54#8), (0, 0xAB#8), (15, 0xF6#8), (14, 0xAA#8)], jb.1 ≤ 16 ∧
      (frameBytes exPayload)[jb.1]? ≠ some jb.2 ∧
      straddleFree ((frameBytes exPayload).set jb.1 jb.2 ++ frameBytes (argsPayload d4)) = true := by decide
  exact ⟨rfl, fun jb hjb => ⟨(h jb hjb).1, (h jb hjb).2.1, straddleFree_windows (h jb hjb).2.2⟩⟩

theorem witness_lengths :
    (payloadOf ex).length = 14 ∧ (List.replicate 13 0#8).length ≠ 14 ∧ (ex ++ [0#8]).length ≠ 17 ∧ (ex.take 16).length ≠ 17 := by
  decide

theorem witness_OneChangedByteIsRejectedPermutationsAreNot_changed :
    ex.length = 17 ∧ validate ex = .accept ∧ ex[0]? ≠ some 0x55#8 ∧ ex[1]? ≠ some 0x05#8 ∧ ex[15]? ≠ some 0x77#8 ∧
    ex[16]? ≠ some 0x54#8 := by decide

/-- V-V13's swap of two payload bytes. -/
theorem witness_OneChangedByteIsRejectedPermutationsAreNot_permuted :
    ∃ (p q : List Byte) (a k z : Byte), p.length = 14 ∧ p.Perm q ∧ p ≠ q ∧ validate (a :: (p ++ [k, z])) = .accept :=
  ⟨payloadOf ex, 0xB0#8 :: 0x04#8 :: (payloadOf ex).drop 2, 0xAA#8, 0x76#8, 0x55#8, rfl, List.Perm.swap _ _ _, by decide,
    by decide⟩

theorem witness_PushEvictsTheOldestOnlyWhenFull :
    (filled 9).hist.length < 10 ∧ (∃ (old : Record) (rest : List Record), (filled 10).hist = old :: rest ∧ rest.length = 9) ∧
    (filled 10).hist.length ≤ 10 :=
  ⟨by decide, ⟨_, List.replicate 9 exRecord, rfl, rfl⟩, by decide⟩

theorem witness_RecerrSaturates :
    ({ State.reset with errorCount := 4294967294#32 } : State).errorCount.toNat < 4294967295 ∧
    ({ State.reset with errorCount := 4294967295#32 } : State).errorCount.toNat = 4294967295 := by decide

theorem witness_ErrorCountNeverFalls :
    Instr.clr ≠ .reset ∧ (∃ t, exec .clr midFrame = .next t) ∧
    (∀ (p : Pins) (rest : List Pins), (drive (ports 0b111#3 0b101010101#9) midFrame).inbox = p :: rest → p.rst = false) ∧
    ∃ t, step (drive (ports 0b111#3 0b101010101#9) midFrame) = .next t := by
  refine ⟨by decide, ⟨_, rfl⟩, ?_, ⟨_, rfl⟩⟩
  intro p rest h
  cases h
  rfl

theorem witness_SameStepReadsSeeTheOldState :
    midFrame.wlen ≤ 16 ∧ (drive (ports 0b100#3 0b101010101#9) midFrame).inbox = [ports 0b100#3 0b101010101#9] ∧
    (ports 0b011#3 0b101010101#9).cWord.getLsbD 2 = false ∧ (ports 0b111#3 0#9).rst = false := by decide

theorem witness_ClrWithAnAcceptanceKeepsTheNewRecord :
    ∃ (s : State) (d : Byte) (rest : List Pins),
      s.inbox = { rst := false, cWord := 0b111#3, rxWord := 1#1 ++ d } :: rest ∧ s.wlen = 16 ∧
      validate (s.wbuf ++ [d]) = .accept :=
  ⟨drive (ports 0b111#3 (1#1 ++ 0x55#8)) midFrame, 0x55#8, [], rfl, rfl, by decide⟩

theorem witness_OnlyAByteChangesBufferAndCounters :
    ∃ (s : State) (p : Pins) (rest : List Pins), s.inbox = p :: rest ∧ p.rst = false ∧ p.rxWord.getLsbD 8 = false :=
  ⟨drive (ports 0b111#3 0b011111111#9) afterBoth, _, [], rfl, rfl, rfl⟩

theorem witness_GhostsAreNeverRead : ∃ t, step (drive (ports 0b100#3 0b101010101#9) midFrame) = .next t := ⟨_, rfl⟩

theorem witness_ConsumerReadsAnswerAndChangeNothing :
    (filled 10).hlen ≤ 10 ∧ (filled 10).readSlot 0 = some exRecord ∧ (filled 10).readSlot 9 = some exRecord := by decide

theorem witness_OutputsOfAStepOnThePorts :
    (filled 10).hlen ≤ 10 ∧
    (∃ t, step (drive (ports 0b100#3 0#9) (filled 10)) = .next t ∧ t.rsp = .snapshot (List.replicate 10 exRecord)) ∧
    (filled 10).readSlot 9 = some exRecord ∧
    (∃ t, step (drive (ports 0b101#3 0b101010101#9) midFrame) = .next t ∧ t.evKind = 1#3) ∧
    (held ex).wlen ≤ 17 ∧ (held ex).hlen ≤ 10 ∧
    (drive (ports 0b110#3 0#9) afterBoth).inbox = [ports 0b110#3 0#9] ∧ (ports 0b111#3 0#9).rst = false ∧
    (ports 0b011#3 0#9).cWord.getLsbD 2 = false :=
  ⟨by decide, ⟨_, rfl, rfl⟩, rfl, ⟨_, rfl, by decide⟩, by decide, by decide, rfl, rfl, rfl⟩

end Sys2Proof.Tests
end

section
/-! The statements about the state: what a step keeps (O7), what a step without a byte leaves (O57), the ghosts (O58),
the output ports (O60), the packed record (O42) and the reset state (O1, O8). -/

namespace Sys2Proof.Machine

/-! ### Acceptance and rejection, further fields -/

@[simp] theorem State.emit_wlen (s : State) (e : Event) : (s.emit e).wlen = s.wlen := rfl

@[simp] theorem reject_wlen (cs : Bool) (k : Rejection) (s : State) : (reject cs k s).wlen = s.wlen - 1 := by
  simp [State.wlen]

@[simp] theorem acceptFrame_wlen (c : List Byte) (s : State) : (acceptFrame c s).wlen = s.wlen - 17 := by
  simp [acceptFrame_eq, State.wlen]

@[simp] theorem acceptFrame_hist (c : List Byte) (s : State) :
    (acceptFrame c s).hist = pushRecord s.hist (decodeRecord c) := rfl

@[simp] theorem acceptFrame_rsp (c : List Byte) (s : State) : (acceptFrame c s).rsp = s.rsp := rfl

/-- A push leaves its record as the newest (R191). -/
@[simp] theorem getLast?_pushRecord (h : List Record) (r : Record) : (pushRecord h r).getLast? = some r := by
  simp [pushRecord]

/-- A rejection's event code is one of the three of R241, never the reserved one (R246). -/
theorem rejectionEvent_code (k : Rejection) :
    rejectionEvent k ≠ .errDecode ∧ 2 ≤ (eventCode (rejectionEvent k)).toNat ∧
    (eventCode (rejectionEvent k)).toNat ≤ 4 := by
  cases k <;> decide

/-! ### What `RXB` keeps -/

/-- A received byte leaves room for the next one: the pass behind it takes a full window apart (R23, R118). -/
theorem receiveByte_wlen_le {s t : State} {d : Byte} (h : receiveByte d s = .next t) : t.wlen ≤ 16 := by
  rcases receiveByte_cases h with ⟨hw, rfl⟩ | ⟨hw, k, rfl⟩ | ⟨hw, -, rfl⟩ <;> simp <;> omega

/-- `RXB` leaves the response to the C port operation alone. -/
theorem receiveByte_rsp {s t : State} {d : Byte} (h : receiveByte d s = .next t) : t.rsp = s.rsp := by
  rcases receiveByte_cases h with ⟨-, rfl⟩ | ⟨-, k, rfl⟩ | ⟨-, -, rfl⟩ <;> simp

/-! ### Safe states -/

/-- Safe is the canonical form of the stores with the sharper bound between operations (R23). -/
theorem State.safe_iff (s : State) : s.safe ↔ s.wlen ≤ 16 ∧ Memory.wf s = true := by
  rw [Memory.wf_iff]
  constructor
  · rintro ⟨hw, hh, hr⟩; exact ⟨hw, by omega, hh, hr⟩
  · rintro ⟨hw, -, hh, hr⟩; exact ⟨hw, hh, hr⟩

/-- `safe` reads the two stores only. -/
theorem State.safe_congr {s t : State} (hw : t.wbuf = s.wbuf) (hh : t.hist = s.hist) : t.safe ↔ s.safe := by
  simp only [State.safe, State.wlen, State.hlen, hw, hh]

theorem State.safe_reset : State.reset.safe := (State.safe_iff _).2 ⟨Nat.zero_le _, Memory.wf_reset⟩

/-- A consumer operation keeps the bounds and the records: `CLR` alone changes a store, and empties it (R41). -/
theorem State.safe_afterC {s : State} (w : BitVec 3) (hs : s.safe) : (s.afterC w).safe := by
  by_cases hw : w = 0b111#3
  · exact ⟨hs.1, by simp [State.hlen, State.afterC_hist, hw], by simp [State.afterC_hist, hw]⟩
  · have hh : (s.afterC w).hist = s.hist := (s.afterC_hist w).trans (if_neg hw)
    exact (State.safe_congr (s.afterC_wbuf w) hh).2 hs

/-- `RXB` keeps the bounds and the records (R23, R193). -/
theorem State.safe_receiveByte {s t : State} {d : Byte} (hs : s.safe) (h : receiveByte d s = .next t) : t.safe :=
  (State.safe_iff t).2 ⟨receiveByte_wlen_le h, Memory.wf_receiveByte ((State.safe_iff s).1 hs).2 h⟩

/-- Settles O7: a step answers the reset state, or what the C port operation leaves, held or given to `RXB`; each is
safe, `RXB` because its own pass of `EXTRACT` makes room again. -/
theorem stepKeepsTheStateSafe : Obligations.StepKeepsTheStateSafe := by
  intro s t hs h
  have hc : (s.popInbox.beginStep.afterC s.nextPins.cWord).safe :=
    State.safe_afterC _ ((State.safe_congr (s := s) rfl rfl).2 hs)
  rcases step_cases h with ⟨-, rfl⟩ | ⟨-, -, rfl⟩ | ⟨-, -, b, hb, rfl⟩
  · exact (State.safe_congr (s := State.reset) rfl rfl).2 State.safe_reset
  · exact (State.safe_congr rfl rfl).2 hc
  · exact (State.safe_congr (s := b) rfl rfl).2 (State.safe_receiveByte hc hb)

/-! ### The record of a frame, and its packed word -/

/-- The signed number of a byte is the byte again modulo 256 (R14, R102). -/
@[simp] theorem byteOfInt_s8 (b : Byte) : byteOfInt (s8 b) = b := by
  have hb := b.isLt
  apply BitVec.eq_of_toNat_eq
  unfold byteOfInt s8
  split <;> rw [BitVec.toNat_ofInt] <;> omega

/-- The record a payload's frame decodes to, field by field (R145 to R158). -/
theorem decodeRecord_frameBytes (p : Payload) :
    decodeRecord (frameBytes p) =
      { motorRpm := p.motorRpm, motorTemp := s8 p.motorTemp, mcuTemp := s8 p.mcuTemp, mcuFlags := p.mcuFlags,
        mcuFaultLevel := p.mcuFaultLevel, imdIsoResistance := p.imdIsoResistance, imdStatusRaw := p.imdStatusRaw,
        vifcStatusRaw := p.vifcStatusRaw, imdDataValid := imdValid p.validity,
        motorDataValid := motorValid p.validity, selfTestFailed := selfTestBit p.validity,
        imdState := imdst p.imdStatusRaw, vifcState := vifcst p.vifcStatusRaw } := by
  rw [← u16be_hiByte_loByte p.motorRpm, ← u16be_hiByte_loByte p.mcuFlags, ← u16be_hiByte_loByte p.imdIsoResistance,
    ← u16be_hiByte_loByte p.imdStatusRaw, ← u16be_hiByte_loByte p.vifcStatusRaw]
  rfl

/-- The packed record's fields above its three flags, at the bit positions of R28: each is peeled out of the
concatenation, the fields below it first. -/
theorem packRecord_fields (r : Record) :
    (packRecord r).extractLsb' 97 16 = r.motorRpm ∧ (packRecord r).extractLsb' 89 8 = byteOfInt r.motorTemp ∧
    (packRecord r).extractLsb' 81 8 = byteOfInt r.mcuTemp ∧ (packRecord r).extractLsb' 65 16 = r.mcuFlags ∧
    (packRecord r).extractLsb' 57 8 = r.mcuFaultLevel ∧ (packRecord r).extractLsb' 41 16 = r.imdIsoResistance ∧
    (packRecord r).extractLsb' 25 16 = r.imdStatusRaw ∧ (packRecord r).extractLsb' 9 16 = r.vifcStatusRaw ∧
    (packRecord r).extractLsb' 6 3 = imdCode r.imdState ∧ (packRecord r).extractLsb' 3 3 = vifcCode r.vifcState := by
  refine ⟨?_, ?_, ?_, ?_, ?_, ?_, ?_, ?_, ?_, ?_⟩ <;>
  · refine (BitVec.extractLsb'_append_eq_of_le (by decide)).trans ?_
    simp (disch := decide) only [BitVec.extractLsb'_append_eq_of_le, BitVec.extractLsb'_append_eq_of_add_le]
    exact BitVec.extractLsb'_eq_self

/-- The packed record's three flags are its lowest bits (R28). -/
theorem packRecord_flags (r : Record) :
    (packRecord r).getLsbD 2 = r.motorDataValid ∧ (packRecord r).getLsbD 1 = r.imdDataValid ∧
    (packRecord r).getLsbD 0 = r.selfTestFailed := by
  refine ⟨?_, ?_, ?_⟩ <;>
  · refine (BitVec.getLsbD_append).trans ?_
    simp only [BitVec.getLsbD_append]
    simp

/-- Settles O42: the layout of every packed record, at the record the payload's frame decodes to. -/
theorem packedRecordFollowsTheBusLayout : Obligations.PackedRecordFollowsTheBusLayout := by
  intro p
  obtain ⟨hrpm, hmt, hct, hflags, hfault, hiso, himd, hvifc, himds, hvifcs⟩ :=
    packRecord_fields (decodeRecord (frameBytes p))
  obtain ⟨hmv, hiv, hst⟩ := packRecord_flags (decodeRecord (frameBytes p))
  have hr := decodeRecord_frameBytes p
  refine ⟨hrpm.trans ?_, hmt.trans ?_, hct.trans ?_, hflags.trans ?_, hfault.trans ?_, hiso.trans ?_, himd.trans ?_,
    hvifc.trans ?_, himds, hvifcs, hmv.trans ?_, hiv.trans ?_, hst.trans ?_⟩ <;>
  simp [hr, motorValid, imdValid, selfTestBit]

/-! ### A step in which no byte is presented -/

/-- With the reset wire low and no byte presented a step completes, and the C port operation is all that acts
(R221, R227). -/
theorem step_of_noByte {s : State} (hr : s.nextPins.rst = false) (h8 : s.nextPins.rxWord.getLsbD 8 = false) :
    step s = .next ((s.popInbox.beginStep.afterC s.nextPins.cWord).emit .none).endStep := by
  rw [step_eq, exec_decodeRx, hr, h8]; rfl

/-- Settles O57, by the equation of a step without a byte. -/
theorem onlyAByteChangesBufferAndCounters : Obligations.OnlyAByteChangesBufferAndCounters := by
  intro s p rest hin hr h8
  obtain rfl : s.nextPins = p := nextPins_of_inbox hin
  exact ⟨_, step_of_noByte hr h8, rfl, rfl, rfl, rfl, rfl, rfl⟩

/-! ### The ghosts -/

/-- The state with other ghosts. -/
def State.withGhost (s : State) (g : Ghost) : State := { s with ghost := g }

/-- The second state is the first but for the ghosts. -/
def State.SameButGhost (s t : State) : Prop := ∃ g : Ghost, t = s.withGhost g

/-- What the ghosts cannot reach: with the first state's ghosts put back, the second state is the first. -/
theorem State.SameButGhost.restore {s t : State} (h : s.SameButGhost t) : { t with ghost := s.ghost } = s := by
  obtain ⟨g, rfl⟩ := h; rfl

theorem reject_sameButGhost (cs : Bool) (k : Rejection) (s : State) (g : Ghost) :
    (reject cs k s).SameButGhost (reject cs k (s.withGhost g)) := by
  unfold reject; dsimp only; split <;> exact ⟨_, rfl⟩

theorem acceptFrame_sameButGhost (c : List Byte) (s : State) (g : Ghost) :
    (acceptFrame c s).SameButGhost (acceptFrame c (s.withGhost g)) := ⟨_, rfl⟩

/-- One pass of `EXTRACT` chooses by the buffer alone (R112). -/
theorem extract_sameButGhost (s : State) (g : Ghost) :
    (extract s).1.SameButGhost (extract (s.withGhost g)).1 := by
  unfold extract
  by_cases h : s.wlen < 17
  · rw [extractPass_wait _ h, extractPass_wait (s := s.withGhost g) _ h]
    exact ⟨_, rfl⟩
  · rw [extractPass_act _ (Nat.le_of_not_lt h), extractPass_act (s := s.withGhost g) _ (Nat.le_of_not_lt h),
      show (s.withGhost g).wbuf = s.wbuf from rfl]
    cases validate (s.wbuf.take 17) with
    | accept => exact acceptFrame_sameButGhost _ s g
    | rejStart => exact reject_sameButGhost _ _ s g
    | rejEnd => exact reject_sameButGhost _ _ s g
    | rejChk => exact reject_sameButGhost _ _ s g

theorem receiveByte_sameButGhost {s t : State} {d : Byte} (g : Ghost) (h : receiveByte d s = .next t) :
    ∃ t', receiveByte d (s.withGhost g) = .next t' ∧ t.SameButGhost t' := by
  obtain ⟨hw, rfl⟩ := receiveByte_eq_next h
  exact ⟨_, receiveByte_of_le (s := s.withGhost g) d hw, extract_sameButGhost (s.appendByte d) _⟩

/-- Each case of a step is the same case with other ghosts, and leaves the same state but for the ghosts. -/
theorem step_sameButGhost {s t : State} (g : Ghost) (h : step s = .next t) :
    ∃ t', step (s.withGhost g) = .next t' ∧ t.SameButGhost t' := by
  have hp : (s.withGhost g).nextPins = s.nextPins := rfl
  rcases step_cases h with ⟨hr, rfl⟩ | ⟨hr, h8, rfl⟩ | ⟨hr, h8, b, hb, rfl⟩
  · exact ⟨_, by rw [step_eq, hp, hr]; rfl, _, rfl⟩
  · exact ⟨_, step_of_noByte (s := s.withGhost g) hr h8, _, rfl⟩
  · obtain ⟨b', hb', g', rfl⟩ := receiveByte_sameButGhost g hb
    refine ⟨(b.withGhost g').endStep, ?_, g', rfl⟩
    rw [step_eq, hp, hr, exec_decodeRx, h8]
    exact congrArg (andThen · fun c => .next c.endStep) hb'

/-- Settles O58. -/
theorem ghostsAreNeverRead : Obligations.GhostsAreNeverRead := by
  intro s t g h
  obtain ⟨t', ht', hsame⟩ := step_sameButGhost g h
  exact ⟨t', ht', hsame.restore⟩

/-! ### The event and the response of a step -/

/-- Everything a step's event can be: nothing, a rejection, or the acceptance of the newest record (R241, R246). -/
theorem step_event {s t : State} (h : step s = .next t) :
    t.event = .none ∨ (∃ k, t.event = rejectionEvent k) ∨ ∃ r, t.event = .accept r ∧ t.hist.getLast? = some r := by
  rcases step_cases h with ⟨-, rfl⟩ | ⟨-, -, rfl⟩ | ⟨-, -, b, hb, rfl⟩
  · exact .inl rfl
  · exact .inl rfl
  · rcases receiveByte_cases hb with ⟨-, rfl⟩ | ⟨-, k, rfl⟩ | ⟨-, -, rfl⟩
    · exact .inl rfl
    · exact .inr (.inl ⟨k, by simp⟩)
    · exact .inr (.inr ⟨_, rfl, by simp⟩)

/-- A step's response answers the C word from the state at the start of the step; under reset there is none
(R36, R270, R282). -/
theorem step_rsp {s t : State} (h : step s = .next t) :
    t.rsp = if s.nextPins.rst then .none else (s.afterC s.nextPins.cWord).rsp := by
  rcases step_cases h with ⟨hr, rfl⟩ | ⟨hr, -, rfl⟩ | ⟨hr, -, b, hb, rfl⟩ <;> rw [hr]
  · rfl
  · rfl
  · exact (receiveByte_rsp hb).trans rfl

/-- Only `SNAP` answers a snapshot, and it is the history (R194). -/
theorem State.afterC_rsp_snapshot {s : State} {w : BitVec 3} {recs : List Record}
    (h : (s.afterC w).rsp = .snapshot recs) : recs = s.hist := by
  unfold State.afterC at h
  dsimp only at h
  split at h
  · cases h; rfl
  · split at h
    · cases h
    · split at h <;> cases h

/-- `CLR` and `CNOP` give no response (R197, R204). -/
theorem State.afterC_rsp_none {s : State} {w : BitVec 3} (hw : w = 0b111#3 ∨ w.getLsbD 2 = false) :
    (s.afterC w).rsp = .none := by
  have hne : w ≠ 0b100#3 ∧ w ≠ 0b101#3 ∧ w ≠ 0b110#3 := by revert w; decide
  obtain ⟨hsnap, hgerr, hglrt⟩ := hne
  simp [State.afterC, hsnap, hgerr, hglrt]

/-- A step that answers a snapshot answers the history at its start (R194, R282). -/
theorem step_rsp_snapshot {s t : State} {recs : List Record} (h : step s = .next t) (hs : t.rsp = .snapshot recs) :
    recs = s.hist := by
  rw [step_rsp h] at hs
  split at hs
  · cases hs
  · exact State.afterC_rsp_snapshot hs

/-! ### The output ports -/

theorem State.hlenO_toNat {s : State} (h : s.hlen ≤ 10) : s.hlenO.toNat = s.hlen := by
  rw [State.hlenO, BitVec.toNat_ofNat, Nat.mod_eq_of_lt (by omega)]

theorem State.wlenO_toNat {s : State} (h : s.wlen ≤ 17) : s.wlenO.toNat = s.wlen := by
  rw [State.wlenO, BitVec.toNat_ofNat, Nat.mod_eq_of_lt (by omega)]

/-- The receiver-loop state on the port is a function of the fill count (R31). -/
theorem State.rxstateO_toNat (s : State) :
    s.rxstateO.toNat = if s.wlen = 0 then 0 else if s.wlen ≤ 16 then 1 else 2 := by
  unfold State.rxstateO State.rxstate rxstateOf
  split
  · rfl
  · split <;> rfl

theorem State.cRspKind_eq {s : State} {x : Response} (h : s.rsp = x) : s.cRspKind = rspCode x := congrArg rspCode h

theorem State.cRspLen_snapshot {s : State} {recs : List Record} (h : s.rsp = .snapshot recs) :
    s.cRspLen = BitVec.ofNat 4 recs.length := by
  simp [State.cRspLen, h]

theorem State.cRspRec_snapshot {s : State} {recs : List Record} (h : s.rsp = .snapshot recs) {i : Fin 10} {r : Record}
    (hi : recs[i.val]? = some r) : s.cRspRec i = packRecord r := by
  simp [State.cRspRec, h, hi]

theorem State.cRspWord_errorCount {s : State} {w : BitVec Config.errW} (h : s.rsp = .errorCount w) :
    s.cRspWord.toNat = w.toNat := by
  simp [State.cRspWord, h]

theorem State.cRspWord_lastRxTime {s : State} {w : BitVec Config.timeW} (h : s.rsp = .lastRxTime w) :
    s.cRspWord.toNat = w.toNat := by
  simp [State.cRspWord, h]

/-- The event ports of a step (R35, R241, R246). -/
theorem step_eventPorts {s t : State} (h : step s = .next t) :
    t.event ≠ .errDecode ∧ t.evKind.toNat ≤ 4 ∧
    (t.evKind = 1#3 → ∃ r : Record, t.event = .accept r ∧ t.hist.getLast? = some r ∧ t.evRecord = packRecord r) := by
  unfold State.evKind State.evRecord
  rcases step_event h with he | ⟨k, he⟩ | ⟨r, he, hl⟩ <;> rw [he]
  · exact ⟨by decide, by decide, fun hk => absurd hk (by decide)⟩
  · obtain ⟨hne, hge, hle⟩ := rejectionEvent_code k
    exact ⟨hne, hle, fun hk => by rw [hk] at hge; exact absurd hge (by decide)⟩
  · exact ⟨by simp, by simp [eventCode], fun _ => ⟨r, rfl, hl, rfl⟩⟩

/-- The ports of a step that answers a snapshot (R36, R194). -/
theorem step_snapshotPorts {s t : State} {recs : List Record} (hh : s.hlen ≤ 10) (h : step s = .next t)
    (hs : t.rsp = .snapshot recs) :
    recs = s.hist ∧ t.cRspKind = 1#2 ∧ t.cRspLen.toNat = s.hlen ∧
    ∀ (i : Fin 10) (r : Record), s.readSlot i.val = some r → t.cRspRec i = packRecord r := by
  obtain rfl := step_rsp_snapshot h hs
  refine ⟨rfl, State.cRspKind_eq hs, ?_, fun i r hr => State.cRspRec_snapshot hs hr⟩
  rw [State.cRspLen_snapshot hs]
  exact State.hlenO_toNat hh

/-- The response ports by the C word, with reset low (R36, R194, R202 to R204, R282). -/
theorem step_responsePorts {s t : State} {w : BitVec 3} (hr : s.nextPins.rst = false) (hw : s.nextPins.cWord = w)
    (h : step s = .next t) :
    (w = 0b100#3 → t.cRspKind = 1#2 ∧ t.cRspLen = s.hlenO) ∧
    (w = 0b101#3 → t.cRspKind = 2#2 ∧ t.cRspWord.toNat = s.errorCountO.toNat) ∧
    (w = 0b110#3 → t.cRspKind = 3#2 ∧ t.cRspWord.toNat = s.lastRxTimeO.toNat) ∧
    (w = 0b111#3 ∨ w.getLsbD 2 = false → t.cRspKind = 0#2) := by
  have ht : t.rsp = (s.afterC w).rsp := by rw [step_rsp h, hr, hw]; rfl
  refine ⟨?_, ?_, ?_, fun hn => ?_⟩
  · rintro rfl; exact ⟨State.cRspKind_eq ht, State.cRspLen_snapshot ht⟩
  · rintro rfl; exact ⟨State.cRspKind_eq ht, State.cRspWord_errorCount ht⟩
  · rintro rfl; exact ⟨State.cRspKind_eq ht, State.cRspWord_lastRxTime ht⟩
  · rw [State.afterC_rsp_none hn] at ht; exact State.cRspKind_eq ht

/-- Settles O60: the event ports, the snapshot's ports, the continuous outputs and the response ports in turn. -/
theorem outputsOfAStepOnThePorts : Obligations.OutputsOfAStepOnThePorts := by
  refine ⟨fun s t h => step_eventPorts h, fun s t recs hh h hs => step_snapshotPorts hh h hs, fun s hw hh => ?_,
    fun s t p rest hin hr h => ?_⟩
  · exact ⟨State.wlenO_toNat hw, State.hlenO_toNat hh, rfl, rfl, s.rxstateO_toNat⟩
  · obtain rfl : s.nextPins = p := nextPins_of_inbox hin
    exact step_responsePorts hr rfl h

/-! ### The reset state -/

/-- Settles O1: every value is the field of `State.reset` itself, and an empty store has no cell or slot. -/
theorem resetLeavesTheResetState : Obligations.ResetLeavesTheResetState :=
  ⟨rfl, rfl, rfl, rfl, rfl, rfl, rfl, rfl, rfl, rfl, rfl, fun _ => rfl, fun _ => rfl⟩

/-- At reset every account is zero on both sides (R33, R42). -/
theorem State.accounted_reset : State.reset.accounted := by decide

/-- Settles O8. -/
theorem resetStateMeetsBothInvariants : Obligations.ResetStateMeetsBothInvariants :=
  ⟨State.safe_reset, State.accounted_reset⟩

end Sys2Proof.Machine
end

section
/-! The encodings (30_encoding.md): the decoder of a frame word read through `VALIDATE`'s verdict on its bytes (O12 to
O15), and the port words (O10, O11). -/

namespace Sys2Proof

open Machine

/-! ### The frame word and its payload -/

/-- Two adjacent bytes of a word are a 16-bit field of it (R53). -/
theorem u16be_extractLsb' (f : BitVec 136) (n : Nat) :
    u16be (f.extractLsb' (n + 8) 8) (f.extractLsb' n 8) = f.extractLsb' n 16 :=
  BitVec.extractLsb'_append_extractLsb'_eq_extractLsb' rfl

/-- The more significant byte of a 16-bit field of a word lies eight bits above it (R53). -/
theorem hiByte_extractLsb' (f : BitVec 136) (n : Nat) : hiByte (f.extractLsb' n 16) = f.extractLsb' (n + 8) 8 := by
  rw [← u16be_extractLsb']
  exact BitVec.extractLsb'_append_eq_left

/-- The less significant byte of a 16-bit field of a word lies at its place (R53). -/
theorem loByte_extractLsb' (f : BitVec 136) (n : Nat) : loByte (f.extractLsb' n 16) = f.extractLsb' n 8 := by
  rw [← u16be_extractLsb']
  exact BitVec.extractLsb'_append_eq_right

/-- The payload fields at the bit positions of R87 are the payload bytes of the word (R82, R87). -/
theorem payloadBytes_wirePayload (f : BitVec 136) : payloadBytes (wirePayload f) = payloadOf (wireBytes f) := by
  simp only [payloadBytes, wirePayload, hiByte_extractLsb', loByte_extractLsb']
  rfl

/-- The payload bytes determine the payload: each 16-bit field is its two bytes (R53). -/
theorem payloadBytes_injective {p q : Payload} (h : payloadBytes p = payloadBytes q) : p = q := by
  have hfield : ∀ {v w : Half}, hiByte v = hiByte w → loByte v = loByte w → v = w := fun {v w} hhi hlo => by
    rw [← u16be_hiByte_loByte v, hhi, hlo, u16be_hiByte_loByte]
  simp only [payloadBytes, List.cons.injEq, and_true] at h
  obtain ⟨hr, hr', ht, hu, hf, hf', hl, hi, hi', hm, hm', hv, hv', hz⟩ := h
  cases p; cases q
  simp only [Payload.mk.injEq]
  exact ⟨hfield hr hr', ht, hu, hfield hf hf', hl, hfield hi hi', hfield hm hm', hfield hv hv', hz⟩

theorem wirePayload_encodeWire (p : Payload) : wirePayload (encodeWire p) = p :=
  payloadBytes_injective ((payloadBytes_wirePayload _).trans (congrArg payloadOf (wireBytes_encodeWire p)))

/-! ### The decoder of a frame word by `VALIDATE`'s verdict -/

/-- What the frame decoder answers on a word whose bytes have this verdict (R83, R133). -/
def decodedByVerdict (f : BitVec 136) : Verdict → Except DecodeError Instr
  | .accept => .ok (.frame (wirePayload f))
  | .rejStart => .error .startMarker
  | .rejEnd => .error .endMarker
  | .rejChk => .error .checksum

/-- Mask, match and the checksum constraint check what `VALIDATE` checks of the word's bytes (R83, R133). -/
theorem decodeWire_eq_decodedByVerdict (f : BitVec 136) : decodeWire f = decodedByVerdict f (validate (wireBytes f)) := by
  have hv : validate (wireBytes f) =
      if wireByte f 0 ≠ 0xAA#8 then .rejStart else if wireByte f 16 ≠ 0x55#8 then .rejEnd
      else if wireByte f 15 ≠ wireChecksum f then .rejChk else .accept := rfl
  rw [hv, decodeWire]
  simp only [wireMask_iff]
  by_cases h0 : wireByte f 0 = 0xAA#8
  · by_cases h16 : wireByte f 16 = 0x55#8
    · by_cases h15 : wireByte f 15 = wireChecksum f <;> simp [h0, h16, h15, decodedByVerdict]
    · simp [h0, h16, decodedByVerdict]
  · simp [h0, decodedByVerdict]

/-- A frame word decodes exactly if `VALIDATE` accepts its bytes, and then to the frame with its payload (R83). -/
theorem decodeWire_eq_ok_iff (f : BitVec 136) (i : Instr) :
    decodeWire f = .ok i ↔ validate (wireBytes f) = .accept ∧ i = .frame (wirePayload f) := by
  rw [decodeWire_eq_decodedByVerdict]
  cases validate (wireBytes f) <;> simp [decodedByVerdict, eq_comm]

theorem wireBytes_length (f : BitVec 136) : (wireBytes f).length = 17 := by simp [wireBytes]

/-- No bit of a valid frame is lost: its bytes are those of the frame with its payload (R82, R83). -/
theorem frameBytes_wirePayload {f : BitVec 136} (h : validate (wireBytes f) = .accept) :
    frameBytes (wirePayload f) = wireBytes f := by
  obtain ⟨p, hp, hw⟩ := (validate_accept_iff (wireBytes_length f)).1 h
  have hpay : payloadBytes (wirePayload f) = p := by
    rw [payloadBytes_wirePayload, hw]
    simp [payloadOf, hp]
  rw [hw, frameBytes, hpay]

theorem encodeWire_wirePayload {f : BitVec 136} (h : validate (wireBytes f) = .accept) :
    encodeWire (wirePayload f) = f :=
  wireBytes_injective ((wireBytes_encodeWire _).trans (frameBytes_wirePayload h))

theorem decodeWire_encodeWire (p : Payload) : decodeWire (encodeWire p) = .ok (.frame p) := by
  rw [decodeWire_eq_ok_iff, wireBytes_encodeWire, wirePayload_encodeWire]
  exact ⟨validate_frameBytes p, rfl⟩

/-! ### The port words -/

/-- The bit above the operand of a port word is its valid bit (R84, R85). -/
theorem getLsbD_append_valid {n : Nat} (v : BitVec 1) (x : BitVec n) : (v ++ x).getLsbD n = v.getLsbD 0 := by
  rw [BitVec.getLsbD_append, if_neg (Nat.lt_irrefl n), Nat.sub_self]

theorem decodeRx_idle (x : Byte) : decodeRx (0#1 ++ x) = .rxidle := by
  rw [decodeRx, getLsbD_append_valid]
  rfl

theorem decodeRx_byte (d : Byte) : decodeRx (1#1 ++ d) = .rxb d := by
  rw [decodeRx, getLsbD_append_valid, BitVec.extractLsb'_append_eq_right]
  rfl

theorem decodeC_idle (x : BitVec 2) : decodeC (0#1 ++ x) = .cnop := by
  rw [decodeC, getLsbD_append_valid]
  rfl

/-- Settles O10: the valid bit selects the row, and the bits beside it its operand or its call. -/
theorem portWordsDecodeByTheirTables : Obligations.PortWordsDecodeByTheirTables :=
  ⟨fun x => congrArg Except.ok (decodeRx_idle x), fun d => congrArg Except.ok (decodeRx_byte d),
    fun x => congrArg Except.ok (decodeC_idle x), rfl, rfl, rfl, rfl⟩

/-- Settles O11, each word by evaluating its decoder. -/
theorem someWordsOfTheTableDecode : Obligations.SomeWordsOfTheTableDecode :=
  ⟨rfl, rfl, rfl, rfl, rfl, rfl, rfl, rfl, rfl⟩

/-! ### Decoding and encoding -/

/-- The operations with an encoding are the nine rows with a format (R80). -/
theorem encode_isSome_iff (i : Instr) :
    (∃ w, encode i = some w) ↔
      ((∃ p, i = .frame p) ∨ i = .rxidle ∨ (∃ d, i = .rxb d) ∨ i = .cnop ∨ i = .snap ∨ i = .gerr ∨ i = .glrt ∨
        i = .clr ∨ i = .reset) := by
  cases i <;> simp [encode]

theorem decode_encode {i : Instr} {w : CodeWord} (h : encode i = some w) : decode w = .ok i := by
  rcases (encode_isSome_iff i).1 ⟨w, h⟩ with
    ⟨p, rfl⟩ | rfl | ⟨d, rfl⟩ | rfl | rfl | rfl | rfl | rfl | rfl <;> cases h
  case inl => exact decodeWire_encodeWire p
  case inr.inr.inl => exact congrArg Except.ok (decodeRx_byte d)
  all_goals rfl

/-- Settles O12: a word of a port row decodes by its table, a frame word because its bytes are those of the frame. -/
theorem decodeOfEncodeIsTheInstruction : Obligations.DecodeOfEncodeIsTheInstruction :=
  ⟨fun _ _ _ h => decode_encode h, encode_isSome_iff⟩

/-- Settles O13: a word that decodes passes `VALIDATE`, and such a word is rebuilt from its payload. -/
theorem encodeOfDecodedFrameIsTheWord : Obligations.EncodeOfDecodedFrameIsTheWord := by
  intro f i h
  obtain ⟨hv, rfl⟩ := (decodeWire_eq_ok_iff f i).1 h
  exact congrArg (fun g => some (CodeWord.wire g)) (encodeWire_wirePayload hv)

theorem decodeRx_cases (w : BitVec 9) : decodeRx w = .rxidle ∨ ∃ d, decodeRx w = .rxb d := by
  unfold decodeRx
  split
  · exact .inr ⟨_, rfl⟩
  · exact .inl rfl

theorem decodeC_cases (w : BitVec 3) :
    decodeC w = .cnop ∨ decodeC w = .snap ∨ decodeC w = .gerr ∨ decodeC w = .glrt ∨ decodeC w = .clr := by
  revert w; decide

/-- Settles O15, by the format of the word. -/
theorem noWordSelectsAMicroOperation : Obligations.NoWordSelectsAMicroOperation := by
  intro w i h
  cases w with
  | wire f => exact ⟨_, encodeOfDecodedFrameIsTheWord f i h⟩
  | rx w =>
    cases h
    rcases decodeRx_cases w with hi | ⟨d, hi⟩ <;> rw [hi] <;> exact ⟨_, rfl⟩
  | c w =>
    cases h
    rcases decodeC_cases w with hi | hi | hi | hi | hi <;> rw [hi] <;> exact ⟨_, rfl⟩
  | rst w =>
    simp only [decode, decodeRst] at h
    split at h <;> cases h
    exact ⟨_, rfl⟩

/-! ### A window and the word its bytes spell -/

theorem assemble_concat (c : List Byte) (b : Byte) : assemble (c ++ [b]) = (assemble c <<< 8) ||| b.setWidth 136 := by
  simp [assemble]

/-- The last byte of a sequence is the lowest of its word (R82). -/
theorem wireByte_assemble_last (c : List Byte) (b : Byte) : wireByte (assemble (c ++ [b])) 16 = b := by
  apply BitVec.eq_of_getLsbD_eq
  intro i hi
  rw [wireByte_getLsbD _ _ _ hi, assemble_concat]
  simp [hi, show i < 136 by omega]

/-- One more byte moves every byte of the word one place up (R82). -/
theorem wireByte_assemble_concat (c : List Byte) (b : Byte) {k : Nat} (hk : k < 16) :
    wireByte (assemble (c ++ [b])) k = wireByte (assemble c) (k + 1) := by
  apply BitVec.eq_of_getLsbD_eq
  intro i hi
  rw [wireByte_getLsbD _ _ _ hi, wireByte_getLsbD _ _ _ hi, assemble_concat]
  have hplace : 128 - 8 * k + i - 8 = 128 - 8 * (k + 1) + i := by omega
  have hhigh : b.getLsbD (128 - 8 * k + i) = false := BitVec.getLsbD_of_ge _ _ (by omega)
  rw [BitVec.getLsbD_or, BitVec.getLsbD_shiftLeft, BitVec.getLsbD_setWidth, hhigh, hplace]
  simp [show 128 - 8 * k + i < 136 by omega, show ¬ 128 - 8 * k + i < 8 by omega]

/-- Counted from the end, the bytes of the word are those of the sequence, as many as fit (R82). -/
theorem wireByte_assemble (bs : List Byte) {k : Nat} (hk : k < 17) (hbs : 16 - k < bs.length) :
    wireByte (assemble bs) k = bs[bs.length - 1 - (16 - k)] := by
  induction bs using List.reverseRecOn generalizing k with
  | nil => simp at hbs
  | append_singleton bs b ih =>
    rw [List.length_append, List.length_singleton] at hbs
    by_cases h16 : k = 16
    · subst h16
      simp [wireByte_assemble_last]
    · rw [wireByte_assemble_concat bs b (by omega), ih (by omega) (by omega)]
      simp only [List.length_append, List.length_singleton]
      rw [List.getElem_append_left (by omega)]
      congr 1
      omega

theorem wireBytes_assemble {c : List Byte} (h : c.length = 17) : wireBytes (assemble c) = c := by
  apply List.ext_getElem
  · rw [wireBytes_length, h]
  · intro k hk _
    rw [wireBytes_length] at hk
    simp only [wireBytes, List.getElem_map, List.getElem_range]
    rw [wireByte_assemble c hk (by omega)]
    congr 1
    omega

/-- The window decoder answers by `VALIDATE`'s verdict on the window itself (R83, R133). -/
theorem decodeWindow_eq {c : List Byte} (h : c.length = 17) :
    decodeWindow c = decodedByVerdict (assemble c) (validate c) := by
  rw [decodeWindow, if_pos h, decodeWire_eq_decodedByVerdict, wireBytes_assemble h]

theorem frameBytes_of_accept {c : List Byte} (h : c.length = 17) (hv : validate c = .accept) :
    frameBytes (wirePayload (assemble c)) = c := by
  have hc := wireBytes_assemble h
  rw [← hc] at hv
  exact (frameBytes_wirePayload hv).trans hc

/-- Settles O14: one case per verdict, the accepted window being the frame of the word it spells. -/
theorem frameDecoderAgreesWithTheValidator : Obligations.FrameDecoderAgreesWithTheValidator := by
  intro c h
  rw [decodeWindow_eq h]
  cases hv : validate c with
  | accept =>
    have hframe : ∃ p, decodedByVerdict (assemble c) .accept = .ok (.frame p) ∧ frameBytes p = c :=
      ⟨_, rfl, frameBytes_of_accept h hv⟩
    simpa [decodedByVerdict] using hframe
  | rejStart => simp [decodedByVerdict]
  | rejEnd => simp [decodedByVerdict]
  | rejChk => simp [decodedByVerdict]

end Sys2Proof
end

section
/-! The operations that run the byte stream (30_encoding.md R101, R102): steps of the machine and steps of `FEED` (O28,
O31), a word placed for the next step (O4), `MKFRAME` (O29, O30), and the status tables (O47). -/

namespace Sys2Proof.Machine

/-! ### The schedule is not read by an operation -/

/-- The state with another schedule of port words. -/
def State.withInbox (s : State) (l : List Pins) : State := { s with inbox := l }

theorem reject_withInbox (cs : Bool) (k : Rejection) (s : State) (l : List Pins) :
    reject cs k (s.withInbox l) = (reject cs k s).withInbox l := by
  unfold reject; dsimp only; split <;> rfl

theorem extract_withInbox (s : State) (l : List Pins) : (extract (s.withInbox l)).1 = (extract s).1.withInbox l := by
  unfold extract
  by_cases h : s.wlen < 17
  · rw [extractPass_wait _ h, extractPass_wait (s := s.withInbox l) _ h]
    rfl
  · rw [extractPass_act _ (Nat.le_of_not_lt h), extractPass_act (s := s.withInbox l) _ (Nat.le_of_not_lt h),
      show (s.withInbox l).wbuf = s.wbuf from rfl]
    cases validate (s.wbuf.take 17) with
    | accept => rfl
    | rejStart => exact reject_withInbox _ _ s l
    | rejEnd => exact reject_withInbox _ _ s l
    | rejChk => exact reject_withInbox _ _ s l

/-- `RXB` leaves the schedule as it stands, whether it completes or faults (R220). -/
theorem receiveByte_withInbox (d : Byte) (s : State) (l : List Pins) :
    receiveByte d (s.withInbox l) = andThen (receiveByte d s) fun t => .next (t.withInbox l) := by
  by_cases h : s.wlen ≤ 16
  · rw [receiveByte_of_le d h, receiveByte_of_le (s := s.withInbox l) d h, andThen_next]
    exact congrArg Host.Outcome.next (extract_withInbox (s.appendByte d) l)
  · rw [receiveByte, receiveByte, append_of_gt d (Nat.lt_of_not_le h),
      append_of_gt (s := s.withInbox l) d (Nat.lt_of_not_le h)]
    rfl

/-! ### Steps that present one byte -/

/-- One of `FEED`'s steps: a byte on the RX port, nothing on the C port (R101, R102). -/
def byteStep (b : Byte) (s : State) : Result := runStep execCnop (execRxb b) s

/-- Such a step is `RXB` between the start and the end of a step. -/
theorem byteStep_eq (b : Byte) (s : State) :
    byteStep b s = andThen (receiveByte b s.beginStep) fun t => .next t.endStep := rfl

theorem feedBytes_cons (b : Byte) (bs : List Byte) (s : State) :
    feedBytes (b :: bs) s = andThen (byteStep b s) (feedBytes bs) := rfl

theorem exec_feed_of_ne_nil {bs : List Byte} (h : bs ≠ []) (s : State) : exec (.feed bs) s = feedBytes bs s := by
  cases bs with
  | nil => exact absurd rfl h
  | cons b bs => rfl

theorem byteStep_withInbox (b : Byte) (s : State) (l : List Pins) :
    byteStep b (s.withInbox l) = andThen (byteStep b s) fun t => .next (t.withInbox l) := by
  rw [byteStep_eq, byteStep_eq, show (s.withInbox l).beginStep = s.beginStep.withInbox l from rfl,
    receiveByte_withInbox, andThen_assoc, andThen_assoc]
  rfl

/-- Nothing on the C port leaves a state whose outputs are cleared as it is (R204). -/
theorem State.afterC_idle (s : State) : s.beginStep.afterC 0#3 = s.beginStep := rfl

/-- A step of the machine at a scheduled byte is a step of `FEED`, the schedule moved on (R102, R227). -/
theorem step_bytePins (b : Byte) (l : List Pins) (s : State) :
    step (s.withInbox (bytePins b :: l)) = byteStep b (s.withInbox l) := by
  rw [step_eq, show (s.withInbox (bytePins b :: l)).nextPins = bytePins b from rfl]
  simp only [bytePins, Bool.false_eq_true, if_false, decodeRx_byte, State.afterC_idle]
  rfl

/-- A run over a scheduled byte is a step of `FEED` and the run of the rest. -/
theorem core_run_bytePins_cons (k : Nat) (b : Byte) (l : List Pins) (s : State) :
    Host.Core.run Sys2Proof.core (k + 1) (s.withInbox (bytePins b :: l)) =
      andThen (byteStep b s) fun t => Host.Core.run Sys2Proof.core k (t.withInbox l) := by
  refine (core_run_succ k _).trans ?_
  rw [step_bytePins, byteStep_withInbox]
  exact andThen_assoc _ _ _

/-- `FEED` likewise takes a step and feeds the rest, under any schedule. -/
theorem feedBytes_cons_withInbox (b : Byte) (bs : List Byte) (l : List Pins) (s : State) :
    feedBytes (b :: bs) (s.withInbox l) = andThen (byteStep b s) fun t => feedBytes bs (t.withInbox l) := by
  rw [feedBytes_cons, byteStep_withInbox]
  exact andThen_assoc _ _ _

/-- A run over scheduled bytes is their `FEED`, step by step; what was scheduled behind them is left (R222). -/
theorem core_run_bytePins (bs : List Byte) (l : List Pins) (s : State) :
    Host.Core.run Sys2Proof.core bs.length (s.withInbox (bs.map bytePins ++ l)) = feedBytes bs (s.withInbox l) := by
  induction bs generalizing s with
  | nil => rfl
  | cons b bs ih =>
    rw [feedBytes_cons_withInbox]
    exact (core_run_bytePins_cons _ b _ s).trans (congrArg (andThen (byteStep b s)) (funext ih))

/-- Settles O28. -/
theorem feedIsConsecutiveSteps : Obligations.FeedIsConsecutiveSteps := by
  intro s bs hbs
  rw [exec_feed_of_ne_nil hbs]
  exact core_run_bytePins bs s.inbox s

/-- A step that presents a byte completes below 17 bytes and leaves room for the next (R23, R219). -/
theorem byteStep_completes (b : Byte) {s : State} (h : s.wlen ≤ 16) : ∃ t, byteStep b s = .next t ∧ t.wlen ≤ 16 := by
  have hb := receiveByte_of_le (s := s.beginStep) b h
  have hroom : (extract (s.beginStep.appendByte b)).1.wlen ≤ 16 := receiveByte_wlen_le hb
  refine ⟨(extract (s.beginStep.appendByte b)).1.endStep, ?_, hroom⟩
  rw [byteStep_eq, hb, andThen_next]

theorem feedBytes_completes (bs : List Byte) {s : State} (h : s.wlen ≤ 16) :
    ∃ t, feedBytes bs s = .next t ∧ t.wlen ≤ 16 := by
  induction bs generalizing s with
  | nil => exact ⟨s, rfl, h⟩
  | cons b bs ih =>
    obtain ⟨u, hu, hw⟩ := byteStep_completes b h
    rw [feedBytes_cons, hu, andThen_next]
    exact ih hw

theorem exec_feed_completes (bs : List Byte) {s : State} (h : s.wlen ≤ 16) :
    ∃ t, exec (.feed bs) s = .next t ∧ t.wlen ≤ 16 := by
  cases bs with
  | nil => exact ⟨_, rfl, h⟩
  | cons b bs => exact feedBytes_completes (b :: bs) h

/-! ### `MKFRAME` and the operations on frames -/

/-- `MKFRAME` returns the frame of its arguments' payload (R102). -/
theorem exec_mkframe (a : FrameArgs) (s : State) :
    exec (.mkframe a) s = .next { s with ret := .bytes (frameBytes (argsPayload a)) } := rfl

/-- Settles O29: the 17 bytes written out are the frame of the arguments' payload. -/
theorem mkframeWritesTheSeventeenBytes : Obligations.MkframeWritesTheSeventeenBytes :=
  fun s a => exec_mkframe a s

/-- Settles O31: both frame operations are `FEED` of a frame's bytes, and `FEED` completes byte by byte. -/
theorem frameOperationsFeedTheirBytes : Obligations.FrameOperationsFeedTheirBytes := by
  intro s
  refine ⟨fun a c h => ?_, fun p => rfl, fun bs hw => exec_feed_completes bs hw⟩
  rw [exec_mkframe] at h
  simp only [Host.Outcome.next.injEq, State.mk.injEq, Ret.bytes.injEq, true_and, and_true] at h
  rw [← h]
  rfl

/-- In its range a signed number is the number of its byte (R14, R102). -/
theorem s8_byteOfInt {x : Int} (h : inS8 x = true) : s8 (byteOfInt x) = x := by
  simp only [inS8, Bool.and_eq_true, decide_eq_true_eq] at h
  unfold s8 byteOfInt
  rw [BitVec.toNat_ofInt]
  split <;> omega

theorem exec_validate_frameBytes (p : Payload) (s : State) :
    exec (.validate (frameBytes p)) s = .next { s with ret := .verdict .accept } := by
  rw [← validate_frameBytes p]
  rfl

theorem exec_decode_frameBytes (p : Payload) (s : State) :
    exec (.decode (frameBytes p)) s = .next { s with ret := .record (decodeRecord (frameBytes p)) } := rfl

/-- Settles O30: the record is that of the arguments' payload, and each temperature in range is that of its byte. -/
theorem decodeUndoesMkframe : Obligations.DecodeUndoesMkframe := by
  intro s a ha
  obtain ⟨hmt, hct⟩ := Bool.and_eq_true_iff.1 ha
  refine ⟨_, _, exec_mkframe a s, exec_validate_frameBytes _ s, exec_decode_frameBytes _ s, ?_⟩
  rw [decodeRecord_frameBytes]
  exact ⟨rfl, s8_byteOfInt hmt, s8_byteOfInt hct, rfl, rfl, rfl, rfl, rfl, rfl, rfl, rfl, rfl, rfl⟩

/-! ### A word placed for the next step -/

theorem withFetchWord_rst (s : State) :
    s.withFetchWord 1 1 = s.withInbox ({ rst := true, cWord := 0#3, rxWord := 0#9 } :: s.inbox) := rfl

/-- The state with a frame's first 16 bytes as the bytes held, the ghosts counting them (R22, R33). -/
def State.holdingFrame (s : State) (p : Payload) : State :=
  { s with wbuf := (frameBytes p).take 16, ghost := { s.ghost with nIn := s.ghost.nOut + 16 } }

/-- Placing a frame word holds its first 16 bytes and places its last on the RX port of the next step (R112). -/
theorem withFetchWord_wire (s : State) (p : Payload) :
    s.withFetchWord 136 (encodeWire p).toNat =
      (s.holdingFrame p).withInbox (bytePins Config.endByte :: s.inbox) := by
  have hword : tableWord 136 (encodeWire p).toNat = some (.wire (encodeWire p)) := by
    rw [tableWord, if_pos ⟨rfl, (encodeWire p).isLt⟩, BitVec.ofNat_toNat, BitVec.setWidth_eq]
  simp only [State.withFetchWord, State.present, hword, State.presentCode, wireBytes_encodeWire]
  rfl

/-- With the 17th byte of a window that `VALIDATE` accepts, `RXB` takes the frame (R112 step 4, R220). -/
theorem receiveByte_of_accept {s : State} {d : Byte} (h : s.wlen = 16) (hv : validate (s.wbuf ++ [d]) = .accept) :
    receiveByte d s = .next (acceptFrame (s.wbuf ++ [d]) (s.appendByte d)) := by
  have hwin : (s.appendByte d).wbuf.take 17 = s.wbuf ++ [d] :=
    List.take_of_length_le (by rw [State.wlen] at h; simp [h])
  rw [receiveByte_of_le d (by omega), extract, extractPass_act _ (by simp [h]), hwin, hv]

/-- The last byte of a held frame completes it (R112 step 4, R223). -/
theorem byteStep_holdingFrame (s : State) (p : Payload) :
    byteStep Config.endByte (s.holdingFrame p) =
      .next (acceptFrame (frameBytes p) ((s.holdingFrame p).beginStep.appendByte Config.endByte)).endStep := by
  have hwin : (s.holdingFrame p).beginStep.wbuf ++ [Config.endByte] = frameBytes p := rfl
  rw [byteStep_eq, receiveByte_of_accept rfl (by rw [hwin, validate_frameBytes]), andThen_next, hwin]

/-- Settles O4: the placed word is what the next step finds on its port; a placed frame is completed by its last byte. -/
theorem presentedWordRunsInTheNextStep : Obligations.PresentedWordRunsInTheNextStep := by
  refine ⟨fun s w t h => ?_, fun s w t h => ?_, fun s => ?_, fun s p => ?_⟩
  · have hrx : exec (decodeRx w) (s.beginStep.afterC 0#3) = .next t := by rw [State.afterC_idle]; exact h
    rw [withFetchWord_rx, step_eq]
    exact congrArg (andThen · fun b => .next b.endStep) hrx
  · rw [exec_decodeC] at h
    cases h
    rw [withFetchWord_c]
    exact step_of_noByte rfl BitVec.getLsbD_zero
  · rw [withFetchWord_rst]
    rfl
  · rw [withFetchWord_wire, step_bytePins]
    refine ⟨_, byteStep_holdingFrame s p, rfl, rfl, rfl, rfl, ?_⟩
    exact pushRecord_eq_tail s.hist _

/-! ### The status tables -/

/-- Settles O47: each table's strings and codes, in its order. -/
theorem statusNamesAndCodes : Obligations.StatusNamesAndCodes := ⟨rfl, rfl, rfl, rfl⟩

end Sys2Proof.Machine
end

section
/-! The frame assembler (40_frame_assembler.md): one pass of `EXTRACT` by `VALIDATE`'s verdict (O24, O59), the byte and event
accounts (O9), and the `APPEND` and `RXB` of one byte (O16, O20, O23). -/

namespace Sys2Proof.Machine

/-! ### A waiting pass -/

/-- A waiting pass clears the event and touches no ghost (R112 step 1). -/
theorem State.emit_none_eq (s : State) : s.emit .none = { s with event := .none } := rfl

@[simp] theorem State.emit_none_ghost (s : State) : (s.emit .none).ghost = s.ghost := rfl

theorem extract_wait {s : State} (h : s.wlen < 17) : extract s = (s.emit .none, .wait) :=
  extractPass_wait Config.countStartMiss h

/-! ### A pass on a full window, by the verdict -/

/-- The rejection a verdict calls for, if it is one (R112 steps 2 and 3, R243 to R245). -/
def rejectionOf : Verdict → Option Rejection
  | .accept => none
  | .rejStart => some .start
  | .rejEnd => some .endMark
  | .rejChk => some .checksum

theorem ne_accept_iff_rejectionOf {v : Verdict} : v ≠ .accept ↔ ∃ k, rejectionOf v = some k := by
  cases v <;> simp [rejectionOf]

/-- A rejected window costs one byte, whichever way misses of the start marker are counted (R112, R114). -/
theorem extractPass_of_rejection (cs : Bool) {s : State} {k : Rejection} (h : 17 ≤ s.wlen)
    (hv : rejectionOf (validate (s.wbuf.take 17)) = some k) : extractPass cs s = (reject cs k s, .dropped) := by
  rw [extractPass_act cs h]
  cases hw : validate (s.wbuf.take 17) <;> rw [hw] at hv <;> cases hv <;> rfl

/-- An accepted window is decoded and taken whole (R112 step 4). -/
theorem extractPass_of_accept (cs : Bool) {s : State} (h : 17 ≤ s.wlen) (hv : validate (s.wbuf.take 17) = .accept) :
    extractPass cs s = (acceptFrame (s.wbuf.take 17) s, .accepted) := by
  rw [extractPass_act cs h, hv]

theorem extract_of_rejection {s : State} {k : Rejection} (h : 17 ≤ s.wlen)
    (hv : rejectionOf (validate (s.wbuf.take 17)) = some k) : extract s = (reject true k s, .dropped) :=
  extractPass_of_rejection Config.countStartMiss h hv

theorem extract_of_accept {s : State} (h : 17 ≤ s.wlen) (hv : validate (s.wbuf.take 17) = .accept) :
    extract s = (acceptFrame (s.wbuf.take 17) s, .accepted) :=
  extractPass_of_accept Config.countStartMiss h hv

/-- The meaning of `EXTRACT` is its pass, with the result as the returned value (R112). -/
theorem exec_extract {s t : State} {p : PassResult} (h : extract s = (t, p)) :
    exec .extract s = .next (t.setRet (.pass p)) := by
  rw [show exec .extract s = .next ((extract s).1.setRet (.pass (extract s).2)) from rfl, h]

/-- The event of a rejecting verdict as the statement of O24 lists it. -/
theorem rejectionOf_of_listed {v : Verdict} {ev : Event}
    (h : v = .rejStart ∧ ev = .errStart ∨ v = .rejEnd ∧ ev = .errEnd ∨ v = .rejChk ∧ ev = .errChk) :
    ∃ k, rejectionOf v = some k ∧ ev = rejectionEvent k := by
  rcases h with ⟨rfl, rfl⟩ | ⟨rfl, rfl⟩ | ⟨rfl, rfl⟩ <;> exact ⟨_, rfl, rfl⟩

/-- Settles O24: below 17 bytes the pass waits; else the verdict on the first 17 names the rejection or the acceptance. -/
theorem extractMakesOnePass : Obligations.ExtractMakesOnePass := by
  intro s
  refine ⟨fun h => exec_extract (extract_wait h), fun h ev hev => ?_, fun h hv => ?_⟩
  · obtain ⟨k, hk, rfl⟩ := rejectionOf_of_listed hev
    refine ⟨saturatingSucc s.errorCount, saturatingSucc_errorCount _, ?_⟩
    rw [exec_extract (extract_of_rejection h hk), reject_true]
    rfl
  · rw [exec_extract (extract_of_accept h hv), acceptFrame_eq, pushRecord_eq_tail]
    rfl

/-! ### The parameter `COUNT_START_MISS` -/

/-- Whether a rejection is counted shows in `error_count` and its ghost only (R114, R247). -/
theorem reject_countStart (k : Rejection) (s : State) :
    reject false k s =
      { reject true k s with
        errorCount := (reject false k s).errorCount
        ghost := { (reject true k s).ghost with nErr := (reject false k s).ghost.nErr } } := by
  cases k <;> rfl

/-- Settles O59: wait and acceptance do not read the parameter, and a rejection only decides by it what it counts. -/
theorem countStartMissTouchesTheCountOnly : Obligations.CountStartMissTouchesTheCountOnly := by
  intro s
  by_cases h : s.wlen < 17
  · rw [extractPass_wait true h, extractPass_wait false h]
    exact ⟨rfl, rfl⟩
  have hfull : 17 ≤ s.wlen := Nat.le_of_not_lt h
  by_cases hv : validate (s.wbuf.take 17) = .accept
  · rw [extractPass_of_accept true hfull hv, extractPass_of_accept false hfull hv]
    exact ⟨rfl, rfl⟩
  · obtain ⟨k, hk⟩ := ne_accept_iff_rejectionOf.1 hv
    rw [extractPass_of_rejection true hfull hk, extractPass_of_rejection false hfull hk]
    exact ⟨rfl, reject_countStart k s⟩

/-! ### The accounts -/

@[simp] theorem rejectionEvent_isReject (k : Rejection) : (rejectionEvent k).isReject = true := by cases k <;> rfl

@[simp] theorem rejectionEvent_isAccept (k : Rejection) : (rejectionEvent k).isAccept = false := by cases k <;> rfl

/-- The accounts read the buffer, the count and the ghosts only. -/
theorem State.accounted_congr {s t : State} (hw : t.wbuf = s.wbuf) (he : t.errorCount = s.errorCount)
    (hg : t.ghost = s.ghost) : t.accounted ↔ s.accounted := by
  simp only [State.accounted, State.wlen, hw, he, hg]

/-- An appended byte is one byte in and one byte held (R111). -/
theorem State.accounted_appendByte {s : State} (d : Byte) (hs : s.accounted) : (s.appendByte d).accounted := by
  obtain ⟨hin, hrest⟩ := hs
  refine ⟨?_, hrest⟩
  rw [State.appendByte_wlen, State.appendByte_ghost]
  dsimp only
  omega

/-- A rejection is one byte out, one error, one rejection event (R121, R247). -/
theorem State.accounted_reject {s : State} (k : Rejection) (h : 1 ≤ s.wlen) (hs : s.accounted) :
    (reject true k s).accounted := by
  obtain ⟨hin, hout, herr, hacc, hrej⟩ := hs
  rw [State.accounted, reject_wlen, reject_true]
  refine ⟨?_, ?_, saturatingSucc_of_min herr, ?_, ?_⟩
  · dsimp only; omega
  · dsimp only; omega
  · simp [hacc]
  · simp [hrej]

/-- An acceptance is 17 bytes out and one acceptance event (R121, R223). -/
theorem State.accounted_acceptFrame {s : State} (c : List Byte) (h : 17 ≤ s.wlen) (hs : s.accounted) :
    (acceptFrame c s).accounted := by
  obtain ⟨hin, hout, herr, hacc, hrej⟩ := hs
  rw [State.accounted, acceptFrame_wlen, acceptFrame_eq]
  refine ⟨?_, ?_, herr, ?_, ?_⟩
  · dsimp only; omega
  · dsimp only; omega
  · simp [hacc, Event.isAccept]
  · simp [hrej, Event.isReject]

/-- One pass of `EXTRACT` keeps the accounts, on a buffer of any length (R121). -/
theorem State.accounted_extract {s : State} (hs : s.accounted) : (extract s).1.accounted := by
  rcases extractPass_cases Config.countStartMiss s with ⟨-, he⟩ | ⟨h, ⟨k, he⟩, -⟩ | ⟨h, -, he⟩ <;>
    rw [extract, he]
  · exact (State.accounted_congr rfl rfl (State.emit_none_ghost s)).2 hs
  · exact State.accounted_reject k (by omega) hs
  · exact State.accounted_acceptFrame _ h hs

theorem State.accounted_receiveByte {s t : State} {d : Byte} (hs : s.accounted) (h : receiveByte d s = .next t) :
    t.accounted := by
  obtain ⟨-, rfl⟩ := receiveByte_eq_next h
  exact State.accounted_extract (State.accounted_appendByte d hs)

/-- Settles O9: a step answers the reset state, or what the C port operation leaves, held or given to `RXB`; the C port
operation moves no account and `RXB` is an append and one pass. -/
theorem stepKeepsTheAccounts : Obligations.StepKeepsTheAccounts := by
  intro s t hs h
  have hc : (s.popInbox.beginStep.afterC s.nextPins.cWord).accounted := (State.accounted_congr (s := s) rfl rfl rfl).2 hs
  rcases step_cases h with ⟨-, rfl⟩ | ⟨-, -, rfl⟩ | ⟨-, -, b, hb, rfl⟩
  · exact (State.accounted_congr (s := State.reset) rfl rfl rfl).2 State.accounted_reset
  · exact (State.accounted_congr rfl rfl rfl).2 hc
  · exact (State.accounted_congr (s := b) rfl rfl rfl).2 (State.accounted_receiveByte hc hb)

/-! ### One byte -/

/-- Settles O16: with the byte the buffer is still below 17, so the pass behind it waits. -/
theorem rxbHoldsAShortBuffer : Obligations.RxbHoldsAShortBuffer := by
  intro s d h
  have hshort : (s.appendByte d).wlen < 17 := by rw [State.appendByte_wlen]; omega
  rw [show exec (.rxb d) s = receiveByte d s from rfl, receiveByte_of_le d (by omega), extract_wait hshort]
  rfl

/-- Settles O20: the held bytes and the end marker are a frame that `VALIDATE` accepts, and nothing is left of it. -/
theorem rxbAcceptsAValidFrame : Obligations.RxbAcceptsAValidFrame := by
  intro s p hw hp r
  have h16 : s.wlen = 16 := by simp [State.wlen, hw, hp]
  have hwin : s.wbuf ++ [0x55#8] = 0xAA#8 :: (p ++ [xorBytes p, 0x55#8]) := by simp [hw]
  have hv : validate (s.wbuf ++ [0x55#8]) = .accept := by simp [hwin, validate_window hp]
  have hnone : (s.wbuf ++ [0x55#8]).drop 17 = [] := List.drop_of_length_le (by rw [hwin]; simp [hp])
  rw [show exec (.rxb 0x55#8) s = receiveByte 0x55#8 s from rfl, receiveByte_of_accept h16 hv, acceptFrame_eq,
    pushRecord_eq_tail, State.appendByte_wbuf, hnone, hwin]
  rfl

theorem State.readCell_appendByte_self (s : State) (d : Byte) : (s.appendByte d).readCell s.wlen = some d :=
  List.getElem?_concat_length

theorem State.readCell_appendByte_of_lt {s : State} (d : Byte) {k : Nat} (h : k < s.wlen) :
    (s.appendByte d).readCell k = s.readCell k :=
  List.getElem?_append_left h

/-- Settles O23. -/
theorem appendPutsTheByteBehind : Obligations.AppendPutsTheByteBehind := by
  intro s d
  refine ⟨fun h => ?_, fun h => append_of_gt d h⟩
  exact ⟨s.appendByte d, append_of_le d h, rfl, s.readCell_appendByte_self d, fun k hk => State.readCell_appendByte_of_lt d hk⟩

end Sys2Proof.Machine
end

section
/-! Draining (40_frame_assembler.md R119 to R123): what `DRAIN` leaves (O25), that `RXB` is `APPEND` and `DRAIN` (O26), that
the chunks a stream comes in do not matter (O27), and what one changed byte of a frame costs (O34). -/

namespace Sys2Proof.Machine

/-! ### What `DRAIN` removes and keeps -/

/-- The second state is the first with bytes removed at the front of its buffer and counted as out; the bytes in, the
response, the returned value, the schedules and the step count are the same. -/
structure State.ShortensTo (s t : State) : Prop where
  buffer : ∃ gone : List Byte, s.wbuf = gone ++ t.wbuf ∧ t.ghost.nOut = s.ghost.nOut + gone.length
  nIn : t.ghost.nIn = s.ghost.nIn
  rsp : t.rsp = s.rsp
  ret : t.ret = s.ret
  inbox : t.inbox = s.inbox
  times : t.times = s.times
  steps : t.steps = s.steps

theorem State.ShortensTo.trans {s t u : State} (h : s.ShortensTo t) (h' : t.ShortensTo u) : s.ShortensTo u := by
  obtain ⟨gone, hw, ho⟩ := h.buffer
  obtain ⟨gone', hw', ho'⟩ := h'.buffer
  refine ⟨⟨gone ++ gone', ?_, ?_⟩, h'.nIn.trans h.nIn, h'.rsp.trans h.rsp, h'.ret.trans h.ret, h'.inbox.trans h.inbox,
    h'.times.trans h.times, h'.steps.trans h.steps⟩
  · rw [hw, hw', List.append_assoc]
  · rw [ho', ho, List.length_append, Nat.add_assoc]

theorem State.shortensTo_emit_none (s : State) : s.ShortensTo (s.emit .none) :=
  ⟨⟨[], rfl, rfl⟩, rfl, rfl, rfl, rfl, rfl, rfl⟩

theorem State.shortensTo_reject {s : State} (k : Rejection) (h : 1 ≤ s.wlen) : s.ShortensTo (reject true k s) := by
  rw [reject_true]
  refine ⟨⟨s.wbuf.take 1, (List.take_append_drop 1 s.wbuf).symm, ?_⟩, rfl, rfl, rfl, rfl, rfl, rfl⟩
  rw [List.length_take_of_le h]

theorem State.shortensTo_acceptFrame {s : State} (c : List Byte) (h : 17 ≤ s.wlen) : s.ShortensTo (acceptFrame c s) := by
  rw [acceptFrame_eq]
  refine ⟨⟨s.wbuf.take 17, (List.take_append_drop 17 s.wbuf).symm, ?_⟩, rfl, rfl, rfl, rfl, rfl, rfl⟩
  rw [List.length_take_of_le h]

theorem State.shortensTo_extract (s : State) : s.ShortensTo (extract s).1 := by
  rcases extractPass_cases Config.countStartMiss s with ⟨-, he⟩ | ⟨h, ⟨k, he⟩, -⟩ | ⟨h, -, he⟩ <;> rw [extract, he]
  · exact s.shortensTo_emit_none
  · exact State.shortensTo_reject k (by omega)
  · exact State.shortensTo_acceptFrame _ h

theorem State.shortensTo_drain (s : State) : s.ShortensTo (drain s) :=
  drain_induct (fun s _ => s.shortensTo_emit_none) (fun s _ ih => s.shortensTo_extract.trans ih) s

/-- A drain ends in a waiting pass: fewer than 17 bytes are held and the event is `EV_NONE` (R112 step 1, R119). -/
theorem drain_waits (s : State) : (drain s).wlen ≤ 16 ∧ (drain s).event = .none :=
  drain_induct (P := fun _ t => t.wlen ≤ 16 ∧ t.event = .none)
    (fun s h => ⟨by rw [State.emit_wlen]; omega, rfl⟩) (fun _ _ ih => ih) s

/-- Settles O25. -/
theorem drainStopsBelowSeventeenBytes : Obligations.DrainStopsBelowSeventeenBytes := by
  intro s
  obtain ⟨hw, he⟩ := drain_waits s
  obtain ⟨hbuf, hin, hrsp, hret, hinbox, htimes, hsteps⟩ := s.shortensTo_drain
  exact ⟨drain s, rfl, hw, he, hbuf, hin, hrsp, hret, hinbox, htimes, hsteps⟩

/-- A buffer of at most 17 bytes is drained by one pass, a second pass only waits (R118, R119). -/
theorem drain_of_wlen_le {s : State} (h : s.wlen ≤ 17) : drain s = (extract s).1.emit .none := by
  by_cases hs : s.wlen < 17
  · rw [drain_wait hs, extract_wait hs]
    rfl
  · have hlt := extract_wlen_lt (Nat.le_of_not_lt hs)
    rw [drain_act (Nat.le_of_not_lt hs), drain_wait (by omega)]

/-- Settles O26: after one appended byte at most 17 are held, so `DRAIN` is the one pass of `RXB` and a waiting one. -/
theorem rxbIsAppendThenDrain : Obligations.RxbIsAppendThenDrain := by
  intro s d h
  refine ⟨s.appendByte d, (extract (s.appendByte d)).1, append_of_le d h, receiveByte_of_le d h, ?_⟩
  have h17 : (s.appendByte d).wlen ≤ 17 := by rw [State.appendByte_wlen]; omega
  rw [show exec .drain (s.appendByte d) = .next (drain (s.appendByte d)) from rfl, drain_of_wlen_le h17]
  rfl

/-! ### Chunks appended whole -/

/-- What reception leaves, whatever the steps it took: the buffer, the history, the count and the ghosts. -/
def State.received (s : State) : List Byte × List Record × BitVec Config.errW × Ghost :=
  (s.wbuf, s.hist, s.errorCount, s.ghost)

theorem State.received_eq_iff {s t : State} :
    s.received = t.received ↔ s.wbuf = t.wbuf ∧ s.hist = t.hist ∧ s.errorCount = t.errorCount ∧ s.ghost = t.ghost := by
  simp [State.received]

theorem State.wlen_eq_of_received {s t : State} (h : s.received = t.received) : t.wlen = s.wlen :=
  congrArg List.length (State.received_eq_iff.1 h).1.symm

/-- A chunk appended whole to a buffer without a bound, as `receiveChunks` appends it (R110, R119). -/
def State.appendBytes (s : State) (c : List Byte) : State :=
  { s with wbuf := s.wbuf ++ c, ghost := { s.ghost with nIn := s.ghost.nIn + c.length } }

theorem receiveChunks_cons (c : List Byte) (cs : List (List Byte)) (s : State) :
    receiveChunks (c :: cs) s = receiveChunks cs (drain (s.appendBytes c)) := rfl

@[simp] theorem State.appendBytes_wlen (s : State) (c : List Byte) : (s.appendBytes c).wlen = s.wlen + c.length :=
  List.length_append

theorem State.appendBytes_nil (s : State) : s.appendBytes [] = s := by simp [State.appendBytes]

theorem State.appendBytes_append (s : State) (c d : List Byte) :
    s.appendBytes (c ++ d) = (s.appendBytes c).appendBytes d := by
  simp [State.appendBytes, Nat.add_assoc]

theorem State.appendBytes_cons (s : State) (d : Byte) (c : List Byte) :
    s.appendBytes (d :: c) = (s.appendByte d).appendBytes c :=
  s.appendBytes_append [d] c

theorem State.received_appendBytes {s t : State} (c : List Byte) (h : s.received = t.received) :
    (s.appendBytes c).received = (t.appendBytes c).received := by
  obtain ⟨hw, hh, he, hg⟩ := State.received_eq_iff.1 h
  simp [State.received, State.appendBytes, hw, hh, he, hg]

/-- A pass reads nothing but what it leaves (R112). -/
theorem extract_received_congr {s t : State} (h : s.received = t.received) :
    (extract s).1.received = (extract t).1.received := by
  obtain ⟨hw, hh, he, hg⟩ := State.received_eq_iff.1 h
  have hlen := State.wlen_eq_of_received h
  by_cases hs : s.wlen < 17
  · rw [extract_wait hs, extract_wait (hlen ▸ hs)]
    exact h
  have hfull : 17 ≤ s.wlen := Nat.le_of_not_lt hs
  by_cases hv : validate (s.wbuf.take 17) = .accept
  · rw [extract_of_accept hfull hv, extract_of_accept (hlen ▸ hfull) (hw ▸ hv), acceptFrame_eq, acceptFrame_eq]
    simp [State.received, hw, hh, he, hg]
  · obtain ⟨k, hk⟩ := ne_accept_iff_rejectionOf.1 hv
    rw [extract_of_rejection hfull hk, extract_of_rejection (hlen ▸ hfull) (hw ▸ hk), reject_true, reject_true]
    simp [State.received, hw, hh, he, hg]

theorem drain_received_congr {s t : State} (h : s.received = t.received) : (drain s).received = (drain t).received := by
  refine drain_induct (P := fun s d => ∀ t : State, s.received = t.received → d.received = (drain t).received)
    (fun s hs t h => ?_) (fun s hs ih t h => ?_) s t h
  · rw [drain_wait (s := t) (State.wlen_eq_of_received h ▸ hs)]
    exact h
  · rw [drain_act (s := t) (State.wlen_eq_of_received h ▸ hs)]
    exact ih _ (extract_received_congr h)

/-- A pass on a full window does not see the bytes behind it (R112). -/
theorem extract_appendBytes {s : State} (c : List Byte) (h : 17 ≤ s.wlen) :
    (extract (s.appendBytes c)).1 = (extract s).1.appendBytes c := by
  have hfull : 17 ≤ (s.appendBytes c).wlen := by rw [State.appendBytes_wlen]; omega
  have htake : (s.appendBytes c).wbuf.take 17 = s.wbuf.take 17 := List.take_append_of_le_length h
  have hdrop : ∀ n ≤ 17, (s.wbuf ++ c).drop n = s.wbuf.drop n ++ c := fun n hn =>
    List.drop_append_of_le_length (Nat.le_trans hn h)
  by_cases hv : validate (s.wbuf.take 17) = .accept
  · rw [extract_of_accept h hv, extract_of_accept hfull (htake.symm ▸ hv), acceptFrame_eq, acceptFrame_eq, htake]
    simp [State.appendBytes, hdrop, State.now]
  · obtain ⟨k, hk⟩ := ne_accept_iff_rejectionOf.1 hv
    rw [extract_of_rejection h hk, extract_of_rejection hfull (htake.symm ▸ hk), reject_true, reject_true]
    simp only [State.appendBytes, hdrop 1 (by omega)]

/-- A pass before the next bytes come is one that the drain behind them need not make (R119). -/
theorem drain_extract_appendBytes (s : State) (c : List Byte) :
    (drain ((extract s).1.appendBytes c)).received = (drain (s.appendBytes c)).received := by
  by_cases h : s.wlen < 17
  · rw [extract_wait h]
    exact drain_received_congr rfl
  · have hfull : 17 ≤ (s.appendBytes c).wlen := by rw [State.appendBytes_wlen]; omega
    rw [← extract_appendBytes c (Nat.le_of_not_lt h), ← drain_act hfull]

/-- Likewise a whole drain before the next bytes come. -/
theorem drain_drain_appendBytes (s : State) (c : List Byte) :
    (drain ((drain s).appendBytes c)).received = (drain (s.appendBytes c)).received :=
  drain_induct (P := fun s d => (drain (d.appendBytes c)).received = (drain (s.appendBytes c)).received)
    (fun _ _ => drain_received_congr rfl) (fun s _ ih => ih.trans (drain_extract_appendBytes s c)) s

/-- No further bytes on a short buffer: the drain receives nothing. -/
theorem drain_appendBytes_nil {s : State} (h : s.wlen ≤ 16) : (drain (s.appendBytes [])).received = s.received := by
  rw [State.appendBytes_nil, drain_wait (by omega)]
  rfl

theorem byteStep_eq_next {b : Byte} {s t : State} (h : byteStep b s = .next t) :
    t = (extract (s.beginStep.appendByte b)).1.endStep ∧ t.wlen ≤ 16 := by
  rw [byteStep_eq] at h
  obtain ⟨v, hv, ht⟩ := andThen_eq_next h
  cases ht
  exact ⟨congrArg State.endStep (receiveByte_eq_next hv).2, receiveByte_wlen_le (t := v) hv⟩

/-- Bytes received one per step leave what one drain of all of them leaves (R119). -/
theorem feedBytes_received {bs : List Byte} {s t : State} (hw : s.wlen ≤ 16) (h : feedBytes bs s = .next t) :
    t.received = (drain (s.appendBytes bs)).received := by
  induction bs generalizing s with
  | nil =>
    cases h
    exact (drain_appendBytes_nil hw).symm
  | cons b bs ih =>
    rw [feedBytes_cons] at h
    obtain ⟨u, hu, ht⟩ := andThen_eq_next h
    obtain ⟨rfl, huw⟩ := byteStep_eq_next hu
    calc t.received
        = (drain ((extract (s.beginStep.appendByte b)).1.endStep.appendBytes bs)).received := ih huw ht
      _ = (drain ((extract (s.beginStep.appendByte b)).1.appendBytes bs)).received := drain_received_congr rfl
      _ = (drain ((s.beginStep.appendByte b).appendBytes bs)).received := drain_extract_appendBytes _ bs
      _ = (drain (s.appendBytes (b :: bs))).received := by
        rw [s.appendBytes_cons]
        exact drain_received_congr rfl

/-- `FEED` leaves what one drain of all its bytes leaves; of no byte it is a step that receives nothing (R102, R119). -/
theorem exec_feed_received {bs : List Byte} {s t : State} (hw : s.wlen ≤ 16) (h : exec (.feed bs) s = .next t) :
    t.received = (drain (s.appendBytes bs)).received := by
  cases bs with
  | nil =>
    cases h
    exact (drain_appendBytes_nil hw).symm
  | cons b bs => exact feedBytes_received hw h

/-- The source's loop leaves what one drain of all its chunks leaves (R119, R222). -/
theorem receiveChunks_received (cs : List (List Byte)) {s : State} (hw : s.wlen ≤ 16) :
    ∃ u, receiveChunks cs s = .next u ∧ u.received = (drain (s.appendBytes cs.flatten)).received := by
  induction cs generalizing s with
  | nil => exact ⟨s, rfl, (drain_appendBytes_nil hw).symm⟩
  | cons c cs ih =>
    obtain ⟨hdw, -⟩ := drain_waits (s.appendBytes c)
    obtain ⟨u, hu, hr⟩ := ih hdw
    refine ⟨u, (receiveChunks_cons c cs s).trans hu, hr.trans ?_⟩
    rw [drain_drain_appendBytes, List.flatten_cons, s.appendBytes_append]

/-- Settles O27: the steps of `FEED` and the source's loop both leave what one drain of all the bytes leaves. -/
theorem chunkingDoesNotMatter : Obligations.ChunkingDoesNotMatter := by
  intro s cs hw
  obtain ⟨t, ht, -⟩ := exec_feed_completes cs.flatten hw
  obtain ⟨u, hu, hr⟩ := receiveChunks_received cs hw
  exact ⟨t, u, ht, hu, State.received_eq_iff.1 ((exec_feed_received hw ht).trans hr.symm)⟩

/-! ### The verdict on a frame with one byte changed -/

/-- One changed byte changes the exclusive or (R131, R137). -/
theorem xorBytes_set_ne {p : List Byte} {i : Nat} {b : Byte} (hi : i < p.length) (hb : p[i]? ≠ some b) :
    xorBytes (p.set i b) ≠ xorBytes p := by
  induction p generalizing i with
  | nil => simp at hi
  | cons a p ih =>
    cases i with
    | zero =>
      have hab : b ≠ a := fun h => hb (by simp [h])
      simpa [xorBytes_cons] using hab
    | succ i => simpa [xorBytes_cons] using ih (by simpa using hi) (by simpa using hb)

/-- The rejection that a change at a frame's offset earns: its marker's, or the checksum's (R133, R137). -/
def offsetRejection (j : Nat) : Rejection := if j = 0 then .start else if j = 16 then .endMark else .checksum

theorem rejectionEvent_offsetRejection (j : Nat) :
    rejectionEvent (offsetRejection j) = if j = 0 then .errStart else if j = 16 then .errEnd else .errChk := by
  unfold offsetRejection
  split
  · rfl
  · split <;> rfl

/-- A frame with one byte changed is rejected by the check of that byte (R137). -/
theorem rejectionOf_changed_frame (p : Payload) {j : Nat} {b : Byte} (hj : j ≤ 16) (hb : (frameBytes p)[j]? ≠ some b) :
    rejectionOf (validate ((frameBytes p).set j b)) = some (offsetRejection j) := by
  have hp := payloadBytes_length p
  unfold frameBytes at hb ⊢
  cases j with
  | zero =>
    have hne : b ≠ 0xAA#8 := fun h => hb (by simp [h])
    rw [List.set_cons_zero, validate_window hp, if_pos hne]
    rfl
  | succ i =>
    rw [List.getElem?_cons_succ] at hb
    rw [List.set_cons_succ]
    by_cases hi : i < 14
    · rw [List.getElem?_append_left (by omega)] at hb
      have hx := xorBytes_set_ne (by omega) hb
      rw [List.set_append_left i b (by omega), validate_window (by rw [List.length_set, hp])]
      simp [hx.symm, rejectionOf, offsetRejection, show i ≠ 15 by omega]
    · have hlast : i = 14 ∨ i = 15 := by omega
      rw [List.getElem?_append_right (by omega), hp] at hb
      rw [List.set_append_right i b (by omega), hp]
      rcases hlast with rfl | rfl
      · have hne : b ≠ xorBytes (payloadBytes p) := fun h => hb (by simp [h])
        rw [show [xorBytes (payloadBytes p), Config.endByte].set (14 - 14) b = [b, 0x55#8] from rfl, validate_window hp]
        simp [hne, rejectionOf, offsetRejection]
      · have hne : b ≠ 0x55#8 := fun h => hb (by simp [h])
        rw [show [xorBytes (payloadBytes p), Config.endByte].set (15 - 14) b = [xorBytes (payloadBytes p), b] from rfl,
          validate_window hp]
        simp [hne, rejectionOf, offsetRejection]

/-! ### A run of rejections -/

/-- The second state is the first after rejections with these events: one byte, one count and one event each. -/
structure State.RejectsTo (s : State) (evs : List Event) (t : State) : Prop where
  wbuf : t.wbuf = s.wbuf.drop evs.length
  hist : t.hist = s.hist
  errorCount : t.errorCount.toNat = min (s.errorCount.toNat + evs.length) 4294967295
  nAcc : t.ghost.nAcc = s.ghost.nAcc
  nErr : t.ghost.nErr = s.ghost.nErr + evs.length
  events : t.ghost.events = s.ghost.events ++ evs
  rejects : ∀ e ∈ evs, e.isReject = true

theorem State.RejectsTo.refl (s : State) : s.RejectsTo [] s := by
  have hmax : s.errorCount.toNat < 4294967296 := s.errorCount.isLt
  refine ⟨rfl, rfl, ?_, rfl, rfl, (List.append_nil _).symm, by simp⟩
  rw [List.length_nil]
  omega

/-- Saturating once before a saturating sum adds up to saturating once (R200). -/
theorem min_succ_add_min (c n m : Nat) : min (min (c + 1) m + n) m = min (c + (n + 1)) m := by omega

theorem State.RejectsTo.cons {s t : State} {k : Rejection} {evs : List Event} (h : (reject true k s).RejectsTo evs t) :
    s.RejectsTo (rejectionEvent k :: evs) t := by
  obtain ⟨hw, hh, he, hacc, hrej, hev, hall⟩ := h
  rw [reject_true] at hw hh he hacc hrej hev
  refine ⟨?_, hh, ?_, hacc, ?_, ?_, ?_⟩
  · rw [hw, List.drop_drop, List.length_cons, Nat.add_comm]
  · rw [he, saturatingSucc_errorCount, List.length_cons]
    exact min_succ_add_min _ _ _
  · rw [hrej, List.length_cons]
    dsimp only
    omega
  · rw [hev, List.append_assoc]
    rfl
  · simpa using hall

/-- Where none of a buffer's first `n` windows is accepted, a drain begins with `n` rejections (R119, R123). -/
theorem drain_of_rejected_windows (n : Nat) {s : State} (hlen : n + 16 ≤ s.wlen)
    (hv : ∀ i < n, validate ((s.wbuf.drop i).take 17) ≠ .accept) :
    ∃ (evs : List Event) (t : State), evs.length = n ∧ s.RejectsTo evs t ∧ drain s = drain t := by
  induction n generalizing s with
  | zero => exact ⟨[], s, rfl, .refl s, rfl⟩
  | succ n ih =>
    obtain ⟨k, hk⟩ := ne_accept_iff_rejectionOf.1 (hv 0 (by omega))
    have hpass := extract_of_rejection (s := s) (by omega) hk
    have hrest : ∀ i < n, validate (((reject true k s).wbuf.drop i).take 17) ≠ .accept := fun i hi => by
      rw [reject_wbuf, List.drop_drop, Nat.add_comm]
      exact hv (i + 1) (by omega)
    obtain ⟨evs, t, hn, ht, hd⟩ := ih (s := reject true k s) (by rw [reject_wlen]; omega) hrest
    refine ⟨rejectionEvent k :: evs, t, by rw [List.length_cons, hn], ht.cons, ?_⟩
    rw [drain_act (by omega), hpass, hd]

/-- A buffer that is just one frame is taken whole by a drain (R112 step 4, R119). -/
theorem drain_of_frame {s : State} (q : Payload) (hw : s.wbuf = frameBytes q) :
    drain s = (acceptFrame (frameBytes q) s).emit .none := by
  have hlen : s.wlen = 17 := by rw [State.wlen, hw, frameBytes_length]
  have htake : s.wbuf.take 17 = frameBytes q := by rw [hw]; rfl
  have hv : validate (s.wbuf.take 17) = .accept := by rw [htake, validate_frameBytes]
  rw [drain_of_wlen_le (by omega), extract_of_accept (by omega) hv, htake]

/-- A changed frame and a good one behind it: the change is rejected, then the sixteen windows that straddle the two, and
what is left is the good frame (R123). -/
theorem drain_of_changed_frame {s : State} {p q : Payload} {j : Nat} {b : Byte}
    (hw : s.wbuf = (frameBytes p).set j b ++ frameBytes q) (hj : j ≤ 16) (hb : (frameBytes p)[j]? ≠ some b)
    (hv : ∀ i, 1 ≤ i → i ≤ 16 → validate ((s.wbuf.drop i).take 17) ≠ .accept) :
    ∃ (mid : List Event) (t : State), mid.length = 16 ∧ s.RejectsTo (rejectionEvent (offsetRejection j) :: mid) t ∧
      t.wbuf = frameBytes q ∧ drain s = drain t := by
  have hlen17 : ((frameBytes p).set j b).length = 17 := by rw [List.length_set, frameBytes_length]
  have hlen : s.wlen = 34 := by rw [State.wlen, hw, List.length_append, hlen17, frameBytes_length]
  have hfirst : extract s = (reject true (offsetRejection j) s, .dropped) :=
    extract_of_rejection (by omega) (by
      rw [hw, List.take_left' hlen17]
      exact rejectionOf_changed_frame p hj hb)
  have hrest : ∀ i < 16, validate (((reject true (offsetRejection j) s).wbuf.drop i).take 17) ≠ .accept := fun i hi => by
    rw [reject_wbuf, List.drop_drop]
    exact hv (1 + i) (by omega) (by omega)
  obtain ⟨mid, t, hn, ht, hd⟩ := drain_of_rejected_windows 16 (by rw [reject_wlen]; omega) hrest
  refine ⟨mid, t, hn, ht.cons, ?_, ?_⟩
  · rw [ht.cons.wbuf, List.length_cons, hn, hw, List.drop_left' hlen17]
  · rw [drain_act (by omega), hfirst, hd]

/-- Settles O34: the bytes fed leave what one drain of them leaves, and that drain is 17 rejections and the acceptance of
the second frame. -/
theorem oneCorruptedPayloadByteLosesOneFrame : Obligations.OneCorruptedPayloadByteLosesOneFrame := by
  intro s p q j b hw hj hb hv
  have hroom : s.wlen ≤ 16 := by simp [State.wlen, hw]
  have hbuf : (s.appendBytes ((frameBytes p).set j b ++ frameBytes q)).wbuf = (frameBytes p).set j b ++ frameBytes q := by
    simp [State.appendBytes, hw]
  obtain ⟨mid, u, hmid, hrej, hq, hdrain⟩ := drain_of_changed_frame hbuf hj hb (by rw [hbuf]; exact hv)
  obtain ⟨-, hhist, herr, hacc, hnerr, hevents, hall⟩ := hrej
  obtain ⟨t, ht, -⟩ := exec_feed_completes ((frameBytes p).set j b ++ frameBytes q) hroom
  have hrecv := exec_feed_received hroom ht
  rw [hdrain, drain_of_frame q hq, acceptFrame_eq] at hrecv
  obtain ⟨htw, hth, hte, htg⟩ := State.received_eq_iff.1 hrecv
  refine ⟨t, mid, ht, ?_, ?_, ?_, ?_, ?_, ?_, hmid, fun e he => hall e (List.mem_cons_of_mem _ he)⟩
  · rw [htw, State.emit_wbuf, hq]
    rfl
  · rw [hth, State.emit_hist, hhist, pushRecord_eq_tail]
    rfl
  · rw [hte, State.emit_errorCount, herr, List.length_cons, hmid]
    rfl
  · rw [htg, State.emit_none_ghost, hacc]
    rfl
  · rw [htg, State.emit_none_ghost, hnerr, List.length_cons, hmid]
    rfl
  · rw [htg, State.emit_none_ghost, hevents, rejectionEvent_offsetRejection, List.append_assoc]
    rfl

end Sys2Proof.Machine
end

section
/-! The packet validator (41_packet_validator.md): `CHECKSUM` as the parity of each bit (O35), `VALIDATE` as its checks in
order (O36), operands of another length (O37), and which changes of a frame the verdict sees (O38). -/

namespace Sys2Proof.Machine

/-! ### The operations by the length of their operand -/

theorem exec_checksum {p : List Byte} (h : p.length = 14) (s : State) :
    exec (.checksum p) s = .next { s with ret := .byte (xorBytes p) } := if_pos h

theorem exec_validate {c : List Byte} (h : c.length = 17) (s : State) :
    exec (.validate c) s = .next { s with ret := .verdict (validate c) } := if_pos h

theorem exec_checksum_refused {p : List Byte} (h : p.length ≠ 14) (s : State) :
    exec (.checksum p) s = .refused (.malformedOperand "CHECKSUM") := if_neg h

theorem exec_validate_refused {c : List Byte} (h : c.length ≠ 17) (s : State) :
    exec (.validate c) s = .refused (.malformedOperand "VALIDATE") := if_neg h

theorem exec_decode_refused {c : List Byte} (h : c.length ≠ 17) (s : State) :
    exec (.decode c) s = .refused (.malformedOperand "DECODE") := if_neg h

/-- Settles O37: each of the three operations is guarded by the length of its operand. -/
theorem operandsOfTheWrongLengthAreRefused : Obligations.OperandsOfTheWrongLengthAreRefused := fun s _ =>
  ⟨fun h => exec_checksum_refused h s, fun h => exec_validate_refused h s, fun h => exec_decode_refused h s⟩

/-- A window written as marker, payload, checksum, marker is 17 bytes. -/
theorem window_length (a k z : Byte) {p : List Byte} (hp : p.length = 14) : (a :: (p ++ [k, z])).length = 17 := by
  simp [hp]

/-- Settles O36: the verdict on a window written out is the chain of the three checks. -/
theorem validateChecksInOrder : Obligations.ValidateChecksInOrder := by
  intro s a p k z hp
  rw [exec_validate (window_length a k z hp), validate_window hp]
  rfl

/-! ### The exclusive or as a parity, and without an order -/

/-- Bit `n` of the exclusive or is the parity of bit `n` of the bytes (R131). -/
theorem getLsbD_xorBytes (p : List Byte) (n : Nat) :
    (xorBytes p).getLsbD n = true ↔ p.countP (fun b => b.getLsbD n) % 2 = 1 := by
  induction p with
  | nil => simp
  | cons b p ih =>
    rw [xorBytes_cons, BitVec.getLsbD_xor, List.countP_cons]
    cases hb : b.getLsbD n with
    | false => simpa using ih
    | true =>
      have hflip : (xorBytes p).getLsbD n = false ↔ p.countP (fun b => b.getLsbD n) % 2 = 0 := by
        rw [← Bool.not_eq_true, ih]
        omega
      simp only [Bool.true_xor, Bool.not_eq_true', hflip, if_true]
      omega

/-- Settles O35: the byte returned is the exclusive or of the fourteen. -/
theorem checksumIsTheBitwiseParity : Obligations.ChecksumIsTheBitwiseParity := fun s p hp =>
  ⟨xorBytes p, exec_checksum hp s, rfl, fun n _ => getLsbD_xorBytes p n⟩

/-- The order of the bytes does not matter to their exclusive or (R139). -/
theorem xorBytes_perm {p q : List Byte} (h : p.Perm q) : xorBytes p = xorBytes q := h.foldl_op_eq

/-! ### Which changes the verdict sees -/

/-- The verdict that names a rejection (R133, R243 to R245): `rejectionOf` read backwards. -/
def rejectionVerdict : Rejection → Verdict
  | .start => .rejStart
  | .endMark => .rejEnd
  | .checksum => .rejChk

theorem eq_rejectionVerdict {v : Verdict} {k : Rejection} (h : rejectionOf v = some k) : v = rejectionVerdict k := by
  cases v <;> cases h <;> rfl

theorem rejectionVerdict_offsetRejection (j : Nat) :
    rejectionVerdict (offsetRejection j) = if j = 0 then .rejStart else if j = 16 then .rejEnd else .rejChk := by
  rw [offsetRejection, apply_ite rejectionVerdict, apply_ite rejectionVerdict]
  rfl

/-- An accepted window is a frame, and a frame with one byte changed is rejected by the check of that byte (R137). -/
theorem validate_changed_window {w : List Byte} {j : Nat} {b : Byte} (hw : w.length = 17) (hv : validate w = .accept)
    (hj : j < 17) (hb : w[j]? ≠ some b) :
    validate (w.set j b) = if j = 0 then .rejStart else if j = 16 then .rejEnd else .rejChk := by
  rw [← frameBytes_of_accept hw hv] at hb ⊢
  have hrej := rejectionOf_changed_frame _ (Nat.le_of_lt_succ hj) hb
  rw [eq_rejectionVerdict hrej, rejectionVerdict_offsetRejection]

/-- The verdict on a window is the same whatever the order of its payload bytes (R139). -/
theorem validate_window_perm {p q : List Byte} (a k z : Byte) (hp : p.length = 14) (h : p.Perm q) :
    validate (a :: (p ++ [k, z])) = validate (a :: (q ++ [k, z])) := by
  rw [validate_window hp, validate_window (h.length_eq.symm.trans hp), xorBytes_perm h]

/-- Settles O38: a changed byte by its offset, a permuted payload by its exclusive or. -/
theorem oneChangedByteIsRejectedPermutationsAreNot : Obligations.OneChangedByteIsRejectedPermutationsAreNot :=
  ⟨fun _ _ _ => validate_changed_window, fun _ _ a k z hp h hv => (validate_window_perm a k z hp h).symm.trans hv⟩

end Sys2Proof.Machine
end

section
/-! The telemetry decoder (42_telemetry_decoder.md): the fields `DECODE` reads from fixed offsets (O39), the two signed
temperatures (O40), and how much of the payload a record keeps (O41). -/

namespace Sys2Proof.Machine

/-! ### `DECODE` on 17 bytes -/

/-- `DECODE` returns the record and changes nothing else, whatever the 17 bytes are (R145, R161). -/
theorem exec_decode {c : List Byte} (h : c.length = 17) (s : State) :
    exec (.decode c) s = .next { s with ret := .record (decodeRecord c) } := if_pos h

/-! ### The bits of the validity byte -/

/-- A mask of one bit reads that bit. -/
theorem decide_and_twoPow_ne_zero {i : Nat} (hi : i < 8) (b : Byte) :
    decide (b &&& BitVec.twoPow 8 i ≠ 0#8) = b.getLsbD i := by
  rw [BitVec.and_twoPow]
  cases b.getLsbD i with
  | false => simp
  | true =>
    have hne : BitVec.twoPow 8 i ≠ 0#8 := fun h => by simpa [hi] using congrArg (fun x => x.getLsbD i) h
    simpa using hne

/-- The three validity booleans are the bits the masks 0x01, 0x02 and 0x80 select (R154, R155, R156). -/
theorem imdValid_eq_mask (b : Byte) : imdValid b = decide (b &&& 0x01#8 ≠ 0#8) :=
  (decide_and_twoPow_ne_zero (by decide : 0 < 8) b).symm

theorem motorValid_eq_mask (b : Byte) : motorValid b = decide (b &&& 0x02#8 ≠ 0#8) :=
  (decide_and_twoPow_ne_zero (by decide : 1 < 8) b).symm

theorem selfTestBit_eq_mask (b : Byte) : selfTestBit b = decide (b &&& 0x80#8 ≠ 0#8) :=
  (decide_and_twoPow_ne_zero (by decide : 7 < 8) b).symm

/-- Two words agree under a mask exactly if they agree at the mask's bits. -/
theorem and_eq_and_iff_getLsbD {w : Nat} (x y m : BitVec w) :
    x &&& m = y &&& m ↔ ∀ i, m.getLsbD i = true → x.getLsbD i = y.getLsbD i := by
  constructor
  · intro h i hm
    simpa [hm] using congrArg (fun z => z.getLsbD i) h
  · intro h
    apply BitVec.eq_of_getLsbD_eq
    intro i _
    rw [BitVec.getLsbD_and, BitVec.getLsbD_and]
    cases hm : m.getLsbD i with
    | false => simp
    | true => rw [h i hm]

/-- The mask 0x83 has the bits 0, 1 and 7. -/
theorem getLsbD_validityMask (i : Nat) : (0x83#8).getLsbD i = true ↔ i = 0 ∨ i = 1 ∨ i = 7 := by
  constructor
  · intro h
    have hi : i < 8 := BitVec.lt_of_getLsbD h
    interval_cases i <;> revert h <;> decide
  · rintro (rfl | rfl | rfl) <;> rfl

/-- Two validity bytes agree under the mask 0x83 exactly if their three booleans agree (R154, R155, R156). -/
theorem and_validityMask_eq_iff (v w : Byte) :
    v &&& 0x83#8 = w &&& 0x83#8 ↔
      imdValid v = imdValid w ∧ motorValid v = motorValid w ∧ selfTestBit v = selfTestBit w := by
  simp only [and_eq_and_iff_getLsbD, getLsbD_validityMask, forall_eq_or_imp, forall_eq, imdValid, motorValid, selfTestBit]

/-! ### The fields of the record -/

/-- Settles O39: each field is that of the record at its offsets, a 16-bit one its two bytes and a boolean one its
masked bit. -/
theorem decodeReadsFixedPositions : Obligations.DecodeReadsFixedPositions := by
  intro s b0 b1 b2 b3 b4 b5 b6 b7 b8 b9 b10 b11 b12 b13 b14 b15 b16
  exact ⟨_, exec_decode rfl s, u16be_toNat b1 b2, u16be_toNat b5 b6, rfl, u16be_toNat b8 b9, u16be_toNat b10 b11,
    u16be_toNat b12 b13, imdValid_eq_mask b14, motorValid_eq_mask b14, selfTestBit_eq_mask b14, rfl, rfl⟩

/-- The signed number of a byte, by its sign bit (R14, G1). -/
theorem s8_eq_ite (b : Byte) : s8 b = if b.toNat < 128 then (b.toNat : Int) else (b.toNat : Int) - 256 :=
  if_congr (by omega) rfl rfl

theorem s8_bounds (b : Byte) : -128 ≤ s8 b ∧ s8 b ≤ 127 := by
  simpa [inS8] using s8_range b

/-- Settles O40: both temperatures are the signed numbers of their bytes. -/
theorem decodeReadsSignedTemperatures : Obligations.DecodeReadsSignedTemperatures := by
  intro s b0 b1 b2 b3 b4 b5 b6 b7 b8 b9 b10 b11 b12 b13 b14 b15 b16
  obtain ⟨hmt, hmt'⟩ := s8_bounds b3
  obtain ⟨hct, hct'⟩ := s8_bounds b4
  exact ⟨_, exec_decode rfl s, s8_eq_ite b3, s8_eq_ite b4, hmt, hmt', hct, hct'⟩

/-! ### What the record keeps of the payload -/

/-- No two bytes have the same signed number: the number gives the byte back. -/
theorem s8_injective : Function.Injective s8 := Function.LeftInverse.injective byteOfInt_s8

/-- Settles O41: field by field, the temperatures through the injectivity of the signed byte, the status values as
functions of their raw words, and the validity byte through its three booleans. -/
theorem recordDeterminesThePayload : Obligations.RecordDeterminesThePayload := by
  intro p q
  rw [decodeRecord_frameBytes, decodeRecord_frameBytes, and_validityMask_eq_iff]
  simp only [Record.mk.injEq, Payload.mk.injEq, s8_injective.eq_iff]
  constructor
  · rintro ⟨hrpm, hmt, hct, hflags, hfault, hiso, himd, hvifc, hiv, hmv, hst, -, -⟩
    exact ⟨⟨hrpm, hmt, hct, hflags, hfault, hiso, himd, hvifc, trivial⟩, hiv, hmv, hst⟩
  · rintro ⟨⟨hrpm, hmt, hct, hflags, hfault, hiso, himd, hvifc, -⟩, hiv, hmv, hst⟩
    exact ⟨hrpm, hmt, hct, hflags, hfault, hiso, himd, hvifc, hiv, hmv, hst, congrArg imdst himd, congrArg vifcst hvifc⟩

end Sys2Proof.Machine
end

section
/-! The status mapping (43_status_mapping.md): `IMDST` and `VIFCST` by the masks of the bits they read (O43, O44),
`MCUST` by the size of its low four bits (O45), and `GEAR` by its 2-bit field (O46). -/

namespace Sys2Proof.Machine

/-! ### A mask by its bits -/

/-- A word is `c` under a mask exactly if it has the bits of `c` at the mask's bits. -/
theorem and_eq_iff_forall_lt {n : Nat} {x m c : BitVec n} (hc : c &&& m = c) :
    x &&& m = c ↔ ∀ i < n, m.getLsbD i = true → x.getLsbD i = c.getLsbD i := by
  conv_lhs => rw [← hc]
  rw [and_eq_and_iff_getLsbD]
  exact ⟨fun h i _ => h i, fun h i hm => h i (BitVec.lt_of_getLsbD hm) hm⟩

/-- The bits of a 16-bit word, one by one. -/
theorem forall_lt_sixteen {P : Nat → Prop} :
    (∀ i < 16, P i) ↔ P 0 ∧ P 1 ∧ P 2 ∧ P 3 ∧ P 4 ∧ P 5 ∧ P 6 ∧ P 7 ∧ P 8 ∧ P 9 ∧ P 10 ∧ P 11 ∧ P 12 ∧ P 13 ∧ P 14 ∧
      P 15 := by
  simp only [Nat.forall_lt_succ_right, Nat.not_lt_zero, false_implies, implies_true, true_and, and_assoc]

/-! ### The first matching tier -/

/-- Settles O43: with every mask read bit by bit, each tier of R171 fixes its value and excludes the others. -/
theorem imdstByMasks : Obligations.ImdstByMasks := by
  intro st s
  refine ⟨imdst s, rfl, ?_⟩
  simp only [imdst, ne_eq, and_eq_iff_forall_lt, forall_lt_sixteen, BitVec.reduceAnd, BitVec.reduceGetLsb]
  split_ifs with hiso herr hwarn htest hcalib <;> grind only

/-- Settles O44: with every mask read bit by bit, each tier of R173 fixes its value and excludes the others. -/
theorem vifcstByMasks : Obligations.VifcstByMasks := by
  intro st v
  refine ⟨vifcst v, rfl, ?_⟩
  simp only [vifcst, ne_eq, and_eq_iff_forall_lt, forall_lt_sixteen, BitVec.reduceAnd, BitVec.reduceGetLsb]
  split_ifs with hcom hstale htst hisoff <;> grind only

/-! ### The fields by their numbers -/

/-- A bit of a word, as a digit of its number. -/
theorem getLsbD_eq_true_iff_toNat {n : Nat} (x : BitVec n) (i : Nat) :
    x.getLsbD i = true ↔ x.toNat / 2 ^ i % 2 = 1 := by
  rw [← BitVec.testBit_toNat, Nat.testBit_eq_decide_div_mod_eq, decide_eq_true_iff]

/-- Settles O45: the highest bit set among the four bounds their number on both sides. -/
theorem mcustNamesTheHighestSetBit : Obligations.McustNamesTheHighestSetBit := by
  intro st f
  refine ⟨mcust f, rfl, ?_⟩
  simp only [mcust, getLsbD_eq_true_iff_toNat]
  split_ifs with hwarn hlimit hstop hblock <;> simp only [true_iff, false_iff] <;> omega

/-- The number of the gear field, bits 3 and 2 (R177, D17). -/
theorem toNat_gearField (f : Half) : (f.extractLsb' 2 2).toNat = f.toNat / 4 % 4 := by
  rw [BitVec.extractLsb'_toNat, Nat.shiftRight_eq_div_pow]

/-- Settles O46: without valid motor data the gear is blank, else it is named by the number of its field. -/
theorem gearReadsBitsThreeAndTwo : Obligations.GearReadsBitsThreeAndTwo := by
  intro st f mv
  refine ⟨gear f mv, rfl, ?_⟩
  cases mv with
  | false => simp [gear]
  | true =>
    simp only [gear, Bool.not_true, Bool.false_eq_true, if_false, ← BitVec.toNat_inj, toNat_gearField,
      BitVec.reduceToNat]
    split_ifs with hn hr hd <;> simp only [true_iff, false_iff, true_and, false_or] <;> omega

end Sys2Proof.Machine
end

section
/-! The history buffer and the status registers (44_history_buffer.md): what one push and a run of pushes keep (O48, O49),
frames received back to back (O33), the consumer port (O50, O51), `RECERR` and `TOUCH` (O52, O54), and that `error_count`
never falls (O53). -/

namespace Sys2Proof.Machine

/-! ### One push -/

theorem exec_push (r : Record) (s : State) : exec (.push r) s = .next { s with hist := pushRecord s.hist r } := rfl

/-- Below ten records nothing is evicted (R191). -/
theorem pushRecord_of_lt {h : List Record} (r : Record) (hh : h.length < 10) : pushRecord h r = h ++ [r] := by
  rw [pushRecord_eq_tail, if_neg (Nat.ne_of_lt hh)]

/-- With ten records held the oldest is evicted (R191). -/
theorem pushRecord_of_full (old : Record) {rest : List Record} (r : Record) (hrest : rest.length = 9) :
    pushRecord (old :: rest) r = rest ++ [r] := by
  rw [pushRecord_eq_tail, if_pos (by rw [List.length_cons, hrest]), List.tail_cons]

/-- Settles O48. -/
theorem pushEvictsTheOldestOnlyWhenFull : Obligations.PushEvictsTheOldestOnlyWhenFull := by
  intro s r
  refine ⟨fun h => ?_, fun old rest hs hrest => ?_⟩
  · rw [exec_push, pushRecord_of_lt r h]
  · rw [exec_push, hs, pushRecord_of_full old r hrest]

/-! ### A run of pushes -/

/-- A push takes the history's length one up, to ten at most (R191, R193). -/
theorem pushRecord_length_eq {h : List Record} (r : Record) (hh : h.length ≤ 10) :
    (pushRecord h r).length = min (h.length + 1) 10 := by
  rw [pushRecord_eq_drop r hh, List.length_drop, List.length_append, List.length_singleton]
  omega

/-- Pushes one after another keep the last ten: what a push drops at the front, and what the later ones drop, add up
(R192). -/
theorem foldl_pushRecord {h : List Record} (rs : List Record) (hh : h.length ≤ 10) :
    rs.foldl pushRecord h = (h ++ rs).drop (h.length + rs.length - 10) := by
  induction rs generalizing h with
  | nil => simp [Nat.sub_eq_zero_of_le hh]
  | cons r rs ih =>
    have hlen := pushRecord_length_eq r hh
    have hfront : pushRecord h r ++ rs = (h ++ r :: rs).drop (h.length + 1 - 10) := by
      rw [pushRecord_eq_drop r hh, ← List.drop_append_of_le_length (by rw [List.length_append]; omega), List.append_assoc, List.singleton_append]
    rw [List.foldl_cons, ih (pushRecord_length r hh), hfront, List.drop_drop, hlen, List.length_cons]
    congr 1
    omega

/-- Performing pushes changes nothing but the history, which takes each record in turn (R191). -/
theorem execAll_push (rs : List Record) (s : State) :
    execAll (rs.map Instr.push) s = .next { s with hist := rs.foldl pushRecord s.hist } := by
  induction rs generalizing s with
  | nil => rfl
  | cons r rs ih => exact ih (s.push r)

/-- Settles O49. -/
theorem pushesKeepTheLastTen : Obligations.PushesKeepTheLastTen := by
  intro s rs h
  rw [execAll_push, foldl_pushRecord rs h]

/-! ### Frames back to back -/

/-- The second state is the first after acceptances of the frames with these payloads, all that its buffer held. -/
structure State.AcceptsTo (s : State) (ps : List Payload) (t : State) : Prop where
  wbuf : t.wbuf = []
  hist : t.hist = (ps.map fun p => decodeRecord (frameBytes p)).foldl pushRecord s.hist
  errorCount : t.errorCount = s.errorCount
  nAcc : t.ghost.nAcc = s.ghost.nAcc + ps.length
  nErr : t.ghost.nErr = s.ghost.nErr

theorem State.AcceptsTo.cons {s t : State} {p : Payload} {ps : List Payload}
    (h : (acceptFrame (frameBytes p) s).AcceptsTo ps t) : s.AcceptsTo (p :: ps) t := by
  obtain ⟨hw, hh, he, hacc, hnerr⟩ := h
  rw [acceptFrame_eq] at hh he hacc hnerr
  refine ⟨hw, hh, he, ?_, hnerr⟩
  rw [hacc, List.length_cons]
  dsimp only
  omega

/-- A drain takes the frame at the front of the buffer whole, whatever stands behind it (R112 step 4, R119). -/
theorem drain_of_frame_append {s : State} {p : Payload} {rest : List Byte} (hw : s.wbuf = frameBytes p ++ rest) :
    drain s = drain (acceptFrame (frameBytes p) s) := by
  have hlen : 17 ≤ s.wlen := by rw [State.wlen, hw, List.length_append, frameBytes_length]; omega
  have htake : s.wbuf.take 17 = frameBytes p := by rw [hw, List.take_left' (frameBytes_length p)]
  have hv : validate (s.wbuf.take 17) = .accept := by rw [htake, validate_frameBytes]
  rw [drain_act hlen, extract_of_accept hlen hv, htake]

/-- A drain of a buffer that is whole frames accepts each of them (R119, R192). -/
theorem drain_of_frames (ps : List Payload) {s : State} (hw : s.wbuf = ps.flatMap frameBytes) :
    s.AcceptsTo ps (drain s) := by
  induction ps generalizing s with
  | nil =>
    have hnil : s.wbuf = [] := hw
    rw [drain_wait (by simp [State.wlen, hnil])]
    exact ⟨hnil, rfl, rfl, rfl, rfl⟩
  | cons p ps ih =>
    rw [List.flatMap_cons] at hw
    have hrest : (acceptFrame (frameBytes p) s).wbuf = ps.flatMap frameBytes := by
      rw [acceptFrame_eq, hw]
      exact List.drop_left' (frameBytes_length p)
    rw [drain_of_frame_append hw]
    exact (ih hrest).cons

/-- Settles O33: the bytes fed leave what one drain of them leaves, and that drain accepts frame after frame. -/
theorem backToBackFramesAreAllAccepted : Obligations.BackToBackFramesAreAllAccepted := by
  intro s ps hw hh
  have hroom : s.wlen ≤ 16 := by simp [State.wlen, hw]
  have hbuf : (s.appendBytes (ps.flatMap frameBytes)).wbuf = ps.flatMap frameBytes := by simp [State.appendBytes, hw]
  obtain ⟨t, ht, -⟩ := exec_feed_completes (ps.flatMap frameBytes) hroom
  obtain ⟨htw, hth, hte, htg⟩ := State.received_eq_iff.1 (exec_feed_received hroom ht)
  obtain ⟨hempty, hhist, herr, hacc, hnerr⟩ := drain_of_frames ps hbuf
  refine ⟨t, ht, htw.trans hempty, hte.trans herr, ?_, ?_, ?_⟩
  · rw [htg, hacc]
    rfl
  · rw [htg, hnerr]
    rfl
  · have hold : (s.appendBytes (ps.flatMap frameBytes)).hist = s.hist := rfl
    rw [hth, hhist, hold, foldl_pushRecord _ hh, List.length_map]

/-! ### The consumer port -/

/-- Settles O50. -/
theorem consumerReadsAnswerAndChangeNothing : Obligations.ConsumerReadsAnswerAndChangeNothing := by
  intro s
  refine ⟨s.respond (.snapshot s.hist), s.respond (.errorCount s.errorCount), s.respond (.lastRxTime s.lastReceiveTime),
    rfl, rfl, State.cRspKind_eq rfl, fun hh => ⟨?_, fun i r hr => State.cRspRec_snapshot rfl hr⟩, rfl,
    rfl, rfl, State.cRspKind_eq rfl, State.cRspWord_errorCount rfl, rfl,
    rfl, rfl, State.cRspKind_eq rfl, State.cRspWord_lastRxTime rfl, rfl⟩
  rw [State.cRspLen_snapshot rfl]
  exact State.hlenO_toNat hh

/-- Settles O51. -/
theorem clrEmptiesTheHistoryAndNothingElse : Obligations.ClrEmptiesTheHistoryAndNothingElse := fun _ => ⟨rfl, rfl⟩

/-! ### The status registers -/

theorem exec_recerr (s : State) :
    exec .recerr s =
      .next { s with
        errorCount := saturatingSucc s.errorCount, ghost := { s.ghost with nErr := s.ghost.nErr + 1 } } := rfl

/-- Settles O52: the two cases are the two branches of the saturating count. -/
theorem recerrSaturates : Obligations.RecerrSaturates := by
  intro s
  refine ⟨fun h => ?_, fun h => ?_⟩
  · have hsucc : saturatingSucc s.errorCount = s.errorCount + 1#32 := if_pos h
    rw [exec_recerr, hsucc]
  · have hstay : saturatingSucc s.errorCount = s.errorCount := if_neg (Nat.not_lt_of_ge h.ge)
    rw [exec_recerr, hstay]

/-- Settles O54. -/
theorem touchCopiesNow : Obligations.TouchCopiesNow := fun _ => rfl

/-! ### The count never falls -/

/-- A pass of `EXTRACT` leaves the count or takes it one up (R200). -/
theorem errorCount_le_extract (s : State) : s.errorCount.toNat ≤ (extract s).1.errorCount.toNat := by
  rcases extractPass_cases Config.countStartMiss s with ⟨-, he⟩ | ⟨-, ⟨k, he⟩, -⟩ | ⟨-, -, he⟩ <;> rw [extract, he]
  · exact Nat.le_refl _
  · rw [reject_true]
    exact le_saturatingSucc s.errorCount
  · exact Nat.le_refl _

theorem errorCount_le_drain (s : State) : s.errorCount.toNat ≤ (drain s).errorCount.toNat :=
  drain_induct (P := fun s d => s.errorCount.toNat ≤ d.errorCount.toNat) (fun _ _ => Nat.le_refl _)
    (fun s _ ih => (errorCount_le_extract s).trans ih) s

theorem errorCount_le_receiveByte {s t : State} {d : Byte} (h : receiveByte d s = .next t) :
    s.errorCount.toNat ≤ t.errorCount.toNat := by
  obtain ⟨-, rfl⟩ := receiveByte_eq_next h
  exact errorCount_le_extract (s.appendByte d)

theorem errorCount_le_feedBytes {bs : List Byte} {s t : State} (h : feedBytes bs s = .next t) :
    s.errorCount.toNat ≤ t.errorCount.toNat := by
  induction bs generalizing s with
  | nil =>
    cases h
    exact Nat.le_refl _
  | cons b bs ih =>
    rw [feedBytes_cons] at h
    obtain ⟨u, hu, ht⟩ := andThen_eq_next h
    have hbs := ih ht
    obtain ⟨rfl, -⟩ := byteStep_eq_next hu
    exact (errorCount_le_extract (s.beginStep.appendByte b)).trans hbs

/-- A function of a byte sequence that completes has only set the returned value (R136, R161). -/
theorem eq_setRet_of_guarded {c : Prop} [Decidable c] {s t : State} {v : Ret} {e : Refusal}
    (h : (if c then .next (s.setRet v) else .refused e : Result) = .next t) : t = s.setRet v := by
  split at h
  · cases h
    rfl
  · cases h

/-- No operation but `RESET` makes the count smaller: those that receive bytes, and `RECERR`, may take it up; the others
leave it (R200). -/
theorem errorCount_le_exec {i : Instr} {s t : State} (hi : i ≠ .reset) (h : exec i s = .next t) :
    s.errorCount.toNat ≤ t.errorCount.toNat := by
  cases i with
  | reset => exact absurd rfl hi
  | rxb d => exact errorCount_le_receiveByte h
  | append d =>
    obtain ⟨-, rfl⟩ := append_eq_next h
    exact Nat.le_refl _
  | extract =>
    cases h
    exact errorCount_le_extract s
  | drain =>
    cases h
    exact errorCount_le_drain s
  | recerr =>
    cases h
    exact le_saturatingSucc s.errorCount
  | feed bs =>
    cases bs with
    | nil =>
      cases h
      exact Nat.le_refl _
    | cons b bs => exact errorCount_le_feedBytes (bs := b :: bs) h
  | feedframe a => exact errorCount_le_feedBytes (bs := frameBytes (argsPayload a)) h
  | frame p => exact errorCount_le_feedBytes (bs := frameBytes p) h
  | checksum p => exact (eq_setRet_of_guarded h) ▸ Nat.le_refl _
  | validate c => exact (eq_setRet_of_guarded h) ▸ Nat.le_refl _
  | decode c => exact (eq_setRet_of_guarded h) ▸ Nat.le_refl _
  | rxidle | cnop | snap | gerr | glrt | clr | imdst | vifcst | mcust | gear | push | touch | poll | mkframe =>
    cases h
    exact Nat.le_refl _

/-- What the environment presents does not reset if its schedule does not; of an empty schedule nothing is presented. -/
theorem nextPins_rst_eq_false {s : State} (h : ∀ (p : Pins) (rest : List Pins), s.inbox = p :: rest → p.rst = false) :
    s.nextPins.rst = false := by
  cases hin : s.inbox with
  | nil => simp [State.nextPins, hin, idlePins]
  | cons p rest => rw [nextPins_of_inbox hin, h p rest hin]

/-- Settles O53: without reset a step is the C port operation, which leaves the count, and holding or `RXB`. -/
theorem errorCountNeverFalls : Obligations.ErrorCountNeverFalls := by
  refine ⟨fun i s t hi h => errorCount_le_exec hi h, fun s t hpins h => ?_⟩
  have hrst := nextPins_rst_eq_false hpins
  rcases step_cases h with ⟨hr, -⟩ | ⟨-, -, rfl⟩ | ⟨-, -, b, hb, rfl⟩
  · exact absurd hr (by simp [hrst])
  · exact Nat.le_refl _
  · have hcount := errorCount_le_receiveByte hb
    rwa [State.endStep_errorCount]

end Sys2Proof.Machine
end

section
/-! The receiver loop (45_receiver_loop.md): what a step runs (O3), that steps and operations complete (O5, O6), the table
of the receiver's states (O21), and the idle operations (O22). -/

namespace Sys2Proof.Machine

/-! ### A step by what is scheduled -/

/-- With the reset wire low a step runs the operations of the words scheduled first, on the schedule behind them
(R226, R227). -/
theorem step_of_inbox {s : State} {p : Pins} {rest : List Pins} (hin : s.inbox = p :: rest) (hr : p.rst = false) :
    step s = runStep (exec (decodeC p.cWord)) (exec (decodeRx p.rxWord)) { s with inbox := rest } := by
  have hpop : s.popInbox = { s with inbox := rest } := by rw [State.popInbox, hin, List.tail_cons]
  rw [step, cycle, nextPins_of_inbox hin, hpop, stepPins, hr]
  rfl

theorem State.popInbox_of_nil {s : State} (h : s.inbox = []) : s.popInbox = s := by
  obtain ⟨⟩ := s
  cases h
  rfl

theorem State.nextPins_of_nil {s : State} (h : s.inbox = []) : s.nextPins = idlePins := by
  rw [State.nextPins, h]

/-- Settles O3: the C port operation completes, so the step answers what the RX port operation does; with nothing
scheduled it is the step of the idle words. -/
theorem stepRunsTheDecodedOperations : Obligations.StepRunsTheDecodedOperations := by
  refine ⟨fun s p rest t u hin hr hc hrx => ?_, fun s p rest t f hin hr hc hrx => ?_, fun s hin => ?_⟩
  · rw [step_of_inbox hin hr, runStep_eq, State.beginStep, hc, andThen_next, hrx]
    rfl
  · rw [step_of_inbox hin hr, runStep_eq, State.beginStep, hc, andThen_next, hrx]
    rfl
  · have hpins := State.nextPins_of_nil hin
    rw [step_of_noByte (by rw [hpins]; rfl) (by rw [hpins]; rfl), hpins, State.popInbox_of_nil hin]
    rfl

/-! ### The idle operations -/

/-- Settles O22. -/
theorem idleOperationsChangeNothing : Obligations.IdleOperationsChangeNothing := fun _ => ⟨rfl, rfl, rfl, rfl⟩

/-! ### Completion -/

/-- A byte completes below 17 bytes, and its own pass makes room for the next (R23, R219). -/
theorem receiveByte_completes (d : Byte) {s : State} (h : s.wlen ≤ 16) :
    ∃ t, receiveByte d s = .next t ∧ t.wlen ≤ 16 :=
  ⟨_, receiveByte_of_le d h, receiveByte_wlen_le (receiveByte_of_le d h)⟩

theorem exec_decodeRx_completes (w : BitVec 9) {s : State} (h : s.wlen ≤ 16) :
    ∃ t, exec (decodeRx w) s = .next t ∧ t.wlen ≤ 16 := by
  rw [exec_decodeRx]
  split
  · exact receiveByte_completes _ h
  · exact ⟨s.emit .none, rfl, h⟩

/-- Settles O5: reset always completes, the C port operation always completes and holds as many bytes, and then the RX
port operation has room for its byte. -/
theorem stepAlwaysAnswersANextState : Obligations.StepAlwaysAnswersANextState := by
  intro s h
  rw [step_eq]
  split
  · exact ⟨_, rfl, Nat.zero_le _⟩
  · obtain ⟨t, ht, hw⟩ :=
      exec_decodeRx_completes s.nextPins.rxWord (s := s.popInbox.beginStep.afterC s.nextPins.cWord) h
    rw [ht]
    exact ⟨t.endStep, rfl, hw⟩

/-- Settles O6: operations that append have room, those that feed make room byte by byte, the functions of a byte
sequence have one of their length; the others complete in every state. -/
theorem everyOperationCompletes : Obligations.EveryOperationCompletes := by
  intro i s hi h
  cases i with
  | rxb d => exact ⟨_, receiveByte_of_le d h⟩
  | append d => exact ⟨_, append_of_le d h⟩
  | feed bs => exact (exec_feed_completes bs h).imp fun _ => And.left
  | frame p => exact (feedBytes_completes (frameBytes p) h).imp fun _ => And.left
  | feedframe a => exact (feedBytes_completes (frameBytes (argsPayload a)) h).imp fun _ => And.left
  | checksum p => exact ⟨_, exec_checksum (of_decide_eq_true hi) s⟩
  | validate c => exact ⟨_, exec_validate (of_decide_eq_true hi) s⟩
  | decode c => exact ⟨_, exec_decode (of_decide_eq_true hi) s⟩
  | rxidle | cnop | snap | gerr | glrt | clr | reset | extract | drain | imdst | vifcst | mcust | gear | push | recerr
  | touch | poll | mkframe => exact ⟨_, rfl⟩

/-! ### The state names of the receiver -/

theorem State.rxstate_of_wlen_eq_zero {s : State} (h : s.wlen = 0) : s.rxstate = .awaitingData := if_pos h

theorem State.rxstate_of_assembling {s : State} (h1 : 1 ≤ s.wlen) (h16 : s.wlen ≤ 16) : s.rxstate = .assembling := by
  rw [State.rxstate, rxstateOf, if_neg (by omega), if_pos h16]

theorem State.rxstate_of_wlen_eq_succ {s : State} {n : Nat} (h : s.wlen = n + 1) (hn : n ≤ 15) :
    s.rxstate = .assembling :=
  State.rxstate_of_assembling (by omega) (by omega)

theorem State.rxstate_of_wlen_gt {s : State} (h : 16 < s.wlen) : s.rxstate = .validating := by
  rw [State.rxstate, rxstateOf, if_neg (by omega), if_neg (by omega)]

theorem State.rxstate_ne_validating {s : State} (h : s.wlen ≤ 16) : s.rxstate ≠ .validating := by
  rcases Nat.eq_zero_or_pos s.wlen with h0 | h1
  · simp [State.rxstate_of_wlen_eq_zero h0]
  · simp [State.rxstate_of_assembling h1 h]

/-! ### The byte that fills a window -/

/-- The verdict on 16 bytes held and a byte reads the head held, then the byte, then the checksum (R133, R134). -/
theorem validate_concat {w : List Byte} (d : Byte) (hw : w.length = 16) :
    validate (w ++ [d]) =
      if w.head? ≠ some 0xAA#8 then .rejStart
      else if d ≠ 0x55#8 then .rejEnd
      else if byteAt (w ++ [d]) 15 ≠ xorBytes (payloadOf (w ++ [d])) then .rejChk
      else .accept := by
  have hlast : byteAt (w ++ [d]) 16 = d := by simp [byteAt, ← hw]
  have hhead : byteAt (w ++ [d]) 0 ≠ 0xAA#8 ↔ w.head? ≠ some 0xAA#8 := by
    cases w with
    | nil => simp at hw
    | cons a w => simp [byteAt]
  simp only [validate, hlast, hhead]

/-- The event of a rejected window is that of its first check that fails (R134, R243 to R245). -/
theorem rejectionEvent_concat {w : List Byte} {d : Byte} {k : Rejection} (hw : w.length = 16)
    (hk : rejectionOf (validate (w ++ [d])) = some k) :
    rejectionEvent k = if w.head? ≠ some 0xAA#8 then .errStart else if d ≠ 0x55#8 then .errEnd else .errChk := by
  rw [validate_concat d hw] at hk
  split at hk
  · next hhead => cases hk; rw [if_pos hhead]; rfl
  · next hhead =>
    rw [if_neg hhead]
    split at hk
    · next hend => cases hk; rw [if_pos hend]; rfl
    · next hend =>
      rw [if_neg hend]
      split at hk <;> cases hk
      rfl

theorem receiveByte_of_lt {s : State} (d : Byte) (h : s.wlen ≤ 15) :
    receiveByte d s = .next ((s.appendByte d).emit .none) := by
  rw [receiveByte_of_le d (by omega), extract_wait (by rw [State.appendByte_wlen]; omega)]

/-- With the 17th byte of a window that `VALIDATE` rejects, `RXB` drops the head (R112 steps 2 and 3, R220). -/
theorem receiveByte_of_rejection {s : State} {d : Byte} {k : Rejection} (h : s.wlen = 16)
    (hk : rejectionOf (validate (s.wbuf ++ [d])) = some k) :
    receiveByte d s = .next (reject true k (s.appendByte d)) := by
  have hwin : (s.appendByte d).wbuf.take 17 = s.wbuf ++ [d] :=
    List.take_of_length_le (by rw [State.wlen] at h; simp [h])
  rw [receiveByte_of_le d (by omega), extract_of_rejection (by simp [h]) (by rw [hwin, hk])]

/-! ### The rows of the table of R216 -/

/-- A step that presents a byte is `RXB` of it on what the C port operation leaves (R226). -/
theorem step_of_byte {s t : State} (hr : s.nextPins.rst = false) (h8 : s.nextPins.rxWord.getLsbD 8 = true)
    (hb : receiveByte (s.nextPins.rxWord.extractLsb' 0 8) (s.popInbox.beginStep.afterC s.nextPins.cWord) = .next t) :
    step s = .next t.endStep := by
  rw [step_eq, exec_decodeRx, if_pos h8, hb, hr]
  rfl

/-- Settles O21: each row is one outcome of the RX port operation on what the C port operation leaves; every step
completes, and its answer is that of the row. -/
theorem rxStateMovesByTheTable : Obligations.RxStateMovesByTheTable := by
  refine ⟨fun s => ⟨fun h => ?_, fun ⟨h1, h16⟩ => ?_, fun h => ?_⟩, fun s t hw h => ?_, fun s p rest hw hin hr => ?_⟩
  · have hs := State.rxstate_of_wlen_eq_zero h
    exact ⟨hs, congrArg rxstateCode hs⟩
  · have hs := State.rxstate_of_assembling h1 h16
    exact ⟨hs, congrArg rxstateCode hs⟩
  · have hs := State.rxstate_of_wlen_gt (s := s) (by omega)
    exact ⟨hs, congrArg rxstateCode hs⟩
  · obtain ⟨u, hu, hroom⟩ := stepAlwaysAnswersANextState s hw
    cases hu.symm.trans h
    exact State.rxstate_ne_validating hroom
  obtain rfl : s.nextPins = p := nextPins_of_inbox hin
  obtain ⟨t, ht, -⟩ := stepAlwaysAnswersANextState s hw
  refine ⟨t, ht, fun h8 => ?_, fun h8 h15 => ?_, fun h8 h16 hv => ?_, fun h8 h16 hv => ?_⟩
  · cases ht.symm.trans (step_of_noByte hr h8)
    exact ⟨rfl, rfl, rfl, rfl, rfl, rfl⟩
  · cases ht.symm.trans (step_of_byte hr h8 (receiveByte_of_lt _ h15))
    have hlen : (s.wbuf ++ [s.nextPins.rxWord.extractLsb' 0 8]).length = s.wlen + 1 := by simp [State.wlen]
    exact ⟨rfl, hlen, State.rxstate_of_wlen_eq_succ hlen h15, rfl, rfl, rfl, rfl⟩
  · obtain ⟨k, hk⟩ := ne_accept_iff_rejectionOf.1 hv
    have hrow := step_of_byte hr h8 (receiveByte_of_rejection h16 hk)
    rw [reject_true] at hrow
    cases ht.symm.trans hrow
    have hlen : ((s.wbuf ++ [s.nextPins.rxWord.extractLsb' 0 8]).drop 1).length = 16 := by
      simp [show s.wbuf.length = 16 from h16]
    exact ⟨rfl, hlen, State.rxstate_of_wlen_eq_succ hlen (Nat.le_refl 15), rejectionEvent_concat h16 hk,
      rfl, saturatingSucc_errorCount _, rfl⟩
  · have hrow := step_of_byte hr h8 (receiveByte_of_accept h16 hv)
    rw [acceptFrame_eq] at hrow
    cases ht.symm.trans hrow
    have hnil : (s.wbuf ++ [s.nextPins.rxWord.extractLsb' 0 8]).drop 17 = [] :=
      List.drop_of_length_le (by simp [show s.wbuf.length = 16 from h16])
    exact ⟨hnil, State.rxstate_of_wlen_eq_zero (congrArg List.length hnil), rfl, pushRecord_eq_tail _ _, rfl, rfl⟩

end Sys2Proof.Machine
end

section
/-! The exceptions (60_exceptions.md): with 16 bytes held, the next byte completes a window whose first failing check
names the rejection: the head (O17), the end marker (O18), or the checksum (O19). -/

namespace Sys2Proof.Machine

/-! ### Which check of the completed window fails first -/

/-- A window whose head is no start marker is rejected for it, whatever follows (R134, R243). -/
theorem rejectionOf_wrong_head {w : List Byte} (d : Byte) (hw : w.length = 16) (hhead : w.head? ≠ some 0xAA#8) :
    rejectionOf (validate (w ++ [d])) = some .start := by
  rw [validate_concat d hw, if_pos hhead]
  rfl

/-- Behind a start marker the end marker is checked before the checksum (R134, R244). -/
theorem rejectionOf_wrong_end {w : List Byte} {d : Byte} (hw : w.length = 16) (hhead : w.head? = some 0xAA#8)
    (hd : d ≠ 0x55#8) : rejectionOf (validate (w ++ [d])) = some .endMark := by
  rw [validate_concat d hw, if_neg (not_not_intro hhead), if_pos hd]
  rfl

/-- Between both markers only the checksum is left to fail (R134, R245). -/
theorem rejectionOf_wrong_checksum {p : List Byte} {k : Byte} (hp : p.length = 14) (hk : k ≠ xorBytes p) :
    rejectionOf (validate (0xAA#8 :: (p ++ [k, 0x55#8]))) = some .checksum := by
  rw [validate_window hp, if_neg (not_not_intro rfl), if_neg (not_not_intro rfl), if_pos hk]
  rfl

/-! ### Taking the rejection -/

/-- `RXB` of the byte that completes a rejected window, whole: the head is lost, the byte is held, one error is counted,
the event names the check, and nothing else changes (R247). -/
theorem exec_rxb_of_rejection {s : State} {d a : Byte} {rest : List Byte} {k : Rejection} (hw : s.wbuf = a :: rest)
    (hrest : rest.length = 15) (hk : rejectionOf (validate (s.wbuf ++ [d])) = some k) :
    ∃ e : BitVec 32, e.toNat = min (s.errorCount.toNat + 1) 4294967295 ∧
      exec (.rxb d) s =
        .next { s with
          wbuf := rest ++ [d], errorCount := e, event := rejectionEvent k,
          ghost := { nIn := s.ghost.nIn + 1, nOut := s.ghost.nOut + 1, nAcc := s.ghost.nAcc, nErr := s.ghost.nErr + 1,
                     events := s.ghost.events ++ [rejectionEvent k] } } := by
  have h16 : s.wlen = 16 := by simp [State.wlen, hw, hrest]
  have hdrop : (s.appendByte d).wbuf.drop 1 = rest ++ [d] := by simp [hw]
  refine ⟨saturatingSucc s.errorCount, saturatingSucc_errorCount _, ?_⟩
  rw [show exec (.rxb d) s = receiveByte d s from rfl, receiveByte_of_rejection h16 hk, reject_true, hdrop]
  rfl

/-! ### The three rejections -/

/-- Settles O17: the first check is that of the head. -/
theorem rxbDropsAHeadThatIsNoStartMarker : Obligations.RxbDropsAHeadThatIsNoStartMarker := by
  intro s d h rest hw hrest hh
  have hheld : s.wbuf.length = 16 := by simp [hw, hrest]
  have hhead : s.wbuf.head? ≠ some 0xAA#8 := by simpa [hw] using hh
  exact exec_rxb_of_rejection hw hrest (rejectionOf_wrong_head d hheld hhead)

/-- Settles O18: the head passes, and the checksum is not reached. -/
theorem rxbRejectsAWrongEndMarker : Obligations.RxbRejectsAWrongEndMarker := by
  intro s d rest hw hrest hd
  have hheld : s.wbuf.length = 16 := by simp [hw, hrest]
  have hhead : s.wbuf.head? = some 0xAA#8 := by simp [hw]
  exact exec_rxb_of_rejection hw hrest (rejectionOf_wrong_end hheld hhead hd)

/-- Settles O19: both markers pass, so the checksum decides. -/
theorem rxbRejectsAWrongChecksum : Obligations.RxbRejectsAWrongChecksum := by
  intro s p k hw hp hk
  have hrest : (p ++ [k]).length = 15 := by simp [hp]
  have hwin : s.wbuf ++ [0x55#8] = 0xAA#8 :: (p ++ [k, 0x55#8]) := by simp [hw]
  have hrej : rejectionOf (validate (s.wbuf ++ [0x55#8])) = some .checksum := by
    rw [hwin, rejectionOf_wrong_checksum hp hk]
  obtain ⟨e, he, hexec⟩ := exec_rxb_of_rejection hw hrest hrej
  rw [List.append_assoc] at hexec
  exact ⟨e, he, hexec⟩

end Sys2Proof.Machine
end

section
/-! Reset and hazards (70_reset_and_hazards.md): the reset wire over both ports (O2), the two ports in one step (O55, O56),
and a frame behind held garbage (O32). -/

namespace Sys2Proof.Machine

/-! ### Reset -/

/-- With the reset wire high a step resets the block and reads neither port word (R270, R271). -/
theorem step_of_reset {s : State} (hr : s.nextPins.rst = true) :
    step s = .next s.popInbox.beginStep.resetBlock.endStep := by
  rw [step_eq, if_pos hr]

/-- Settles O2: the step under reset and the operation both leave `State.resetBlock`, whatever was there. -/
theorem resetOverridesBothPorts : Obligations.ResetOverridesBothPorts := by
  refine ⟨fun s p rest hin hr => ?_, fun s => ?_⟩
  · obtain rfl : s.nextPins = p := nextPins_of_inbox hin
    exact ⟨_, step_of_reset hr, rfl, rfl, rfl, rfl, rfl, rfl, rfl, rfl, rfl, rfl, rfl, rfl, rfl⟩
  · exact ⟨s.resetBlock, rfl, rfl, rfl, rfl, rfl, rfl, rfl, rfl, rfl, rfl, rfl, rfl, rfl, rfl⟩

/-! ### Both ports in one step -/

/-- Settles O55: the step completes, and its response is what the C port operation answers before the byte. -/
theorem sameStepReadsSeeTheOldState : Obligations.SameStepReadsSeeTheOldState := by
  intro s p rest hw hin hr
  obtain rfl : s.nextPins = p := nextPins_of_inbox hin
  obtain ⟨t, ht, -⟩ := stepAlwaysAnswersANextState s hw
  have hrsp : t.rsp = (s.afterC s.nextPins.cWord).rsp := by rw [step_rsp ht, hr]; rfl
  refine ⟨t, ht, fun hc => ?_, fun hc => ?_, fun hc => ?_, fun hc => hrsp.trans (State.afterC_rsp_none hc)⟩ <;>
  · rw [hrsp, hc]
    rfl

/-- Settles O56: `RXB` accepts on the history that `CLR` left empty. -/
theorem clrWithAnAcceptanceKeepsTheNewRecord : Obligations.ClrWithAnAcceptanceKeepsTheNewRecord := by
  intro s d rest hin h16 hv
  have hpins := nextPins_of_inbox hin
  have hbyte : (1#1 ++ d).extractLsb' 0 8 = d := BitVec.extractLsb'_append_eq_right
  have hrx : receiveByte d (s.popInbox.beginStep.afterC 0b111#3) =
      .next (acceptFrame (s.wbuf ++ [d]) ((s.popInbox.beginStep.afterC 0b111#3).appendByte d)) :=
    receiveByte_of_accept h16 hv
  have hstep := step_of_byte (s := s) (by rw [hpins]) (by rw [hpins, getLsbD_append_valid]; rfl)
    (by rw [hpins, hbyte]; exact hrx)
  exact ⟨_, hstep, rfl, rfl⟩

/-! ### The bytes of a frame, one per step -/

theorem feedBytes_append (bs cs : List Byte) (s : State) :
    feedBytes (bs ++ cs) s = andThen (feedBytes bs s) (feedBytes cs) := by
  induction bs generalizing s with
  | nil => rfl
  | cons b bs ih => rw [List.cons_append, feedBytes_cons, feedBytes_cons, andThen_assoc, funext ih]

/-- Steps of `FEED` move only the values of `now` and the step count on: the port schedule and the returned value stay
(R38, R102). -/
theorem feedBytes_schedule {bs : List Byte} {s t : State} (h : feedBytes bs s = .next t) :
    t.inbox = s.inbox ∧ t.ret = s.ret ∧ t.times = s.times.drop bs.length ∧ t.steps = s.steps + bs.length := by
  induction bs generalizing s with
  | nil =>
    cases h
    exact ⟨rfl, rfl, rfl, rfl⟩
  | cons b bs ih =>
    rw [feedBytes_cons] at h
    obtain ⟨u, hu, ht⟩ := andThen_eq_next h
    obtain ⟨rfl, -⟩ := byteStep_eq_next hu
    obtain ⟨-, -, -, hret, hinbox, htimes, hsteps⟩ := (s.beginStep.appendByte b).shortensTo_extract
    obtain ⟨hinbox', hret', htimes', hsteps'⟩ := ih ht
    refine ⟨hinbox'.trans hinbox, hret'.trans hret, ?_, ?_⟩
    · rw [htimes', State.endStep_times, htimes, List.length_cons, ← List.drop_one, List.drop_drop, Nat.add_comm]
      rfl
    · rw [hsteps', State.endStep_steps, hsteps, List.length_cons, Nat.add_assoc, Nat.add_comm 1]
      rfl

/-- The step whose byte completes a valid window accepts it (R112 step 4, R220). -/
theorem byteStep_of_accept {s : State} {d : Byte} (h : s.wlen = 16) (hv : validate (s.wbuf ++ [d]) = .accept) :
    byteStep d s = .next (acceptFrame (s.wbuf ++ [d]) (s.beginStep.appendByte d)).endStep := by
  rw [byteStep_eq, receiveByte_of_accept (s := s.beginStep) h hv]
  rfl

/-! ### Garbage in front of a frame -/

/-- A window that begins with a byte that is no start marker is not accepted (R134). -/
theorem validate_take_ne_accept {w : List Byte} {b : Byte} (hb : w.head? = some b) (hne : b ≠ 0xAA#8) :
    validate (w.take 17) ≠ .accept := by
  cases w with
  | nil => cases hb
  | cons a w =>
    cases hb
    have hhead : validate ((b :: w).take 17) = .rejStart := if_pos hne
    rw [hhead]
    decide

/-- Where only the last 16 bytes of a buffer can begin with a start marker, a drain drops the others, one by one
(R112 step 2, R118). -/
theorem drain_of_garbage {s : State} {g c : List Byte} (hw : s.wbuf = g ++ c) (hc : c.length = 16)
    (hg : ∀ b ∈ g, b ≠ 0xAA#8) :
    ∃ (evs : List Event) (t : State), evs.length = g.length ∧ s.RejectsTo evs t ∧ t.wbuf = c ∧ drain s = t.emit .none := by
  have hlen : s.wlen = g.length + 16 := by rw [State.wlen, hw, List.length_append, hc]
  have hrejected : ∀ i < g.length, validate ((s.wbuf.drop i).take 17) ≠ .accept := fun i hi => by
    have hhead : (s.wbuf.drop i).head? = some g[i] := by
      rw [hw, List.head?_drop, List.getElem?_append_left hi, List.getElem?_eq_getElem hi]
    exact validate_take_ne_accept hhead (hg _ (List.getElem_mem hi))
  obtain ⟨evs, t, hn, ht, hd⟩ := drain_of_rejected_windows g.length (by omega) hrejected
  have htw : t.wbuf = c := by rw [ht.wbuf, hn, hw, List.drop_left]
  exact ⟨evs, t, hn, ht, htw, hd.trans (drain_wait (by rw [State.wlen, htw]; omega))⟩

/-- Sixteen bytes fed behind garbage displace all of it, each dropped byte a rejection, and are what is held (R291). -/
theorem feedBytes_behind_garbage {s t : State} {c : List Byte} (hw : s.wlen ≤ 16) (hg : ∀ b ∈ s.wbuf, b ≠ 0xAA#8)
    (hc : c.length = 16) (h : feedBytes c s = .next t) :
    ∃ (evs : List Event) (u : State),
      evs.length = s.wlen ∧ (s.appendBytes c).RejectsTo evs u ∧ u.wbuf = c ∧ t.received = u.received := by
  obtain ⟨evs, u, hn, hrej, huw, hd⟩ := drain_of_garbage (s := s.appendBytes c) rfl hc hg
  refine ⟨evs, u, hn, hrej, huw, ?_⟩
  rw [feedBytes_received hw h, hd]
  rfl

/-- `FRAME` whose first 16 bytes are what its first 16 steps leave held accepts in its last step (R112 step 4, R291). -/
theorem exec_frame_of_held {s m : State} {p : Payload} (hm : feedBytes ((frameBytes p).take 16) s = .next m)
    (hheld : m.wbuf = (frameBytes p).take 16) :
    exec (.frame p) s = .next (acceptFrame (frameBytes p) (m.beginStep.appendByte Config.endByte)).endStep := by
  have hsplit : frameBytes p = (frameBytes p).take 16 ++ [Config.endByte] := rfl
  have hwin : m.wbuf ++ [Config.endByte] = frameBytes p := by rw [hheld]; rfl
  have hlast := byteStep_of_accept (congrArg List.length hheld) (d := Config.endByte) (by rw [hwin, validate_frameBytes])
  rw [show exec (.frame p) s = feedBytes (frameBytes p) s from rfl, hsplit, feedBytes_append, hm, andThen_next,
    feedBytes_cons, hlast, hwin]
  rfl

/-- Settles O32: the first 16 bytes of the frame displace the garbage, and the last one completes the window. -/
theorem frameBehindGarbageIsAccepted : Obligations.FrameBehindGarbageIsAccepted := by
  intro s p hw hg
  obtain ⟨m, hm, -⟩ := feedBytes_completes ((frameBytes p).take 16) hw
  obtain ⟨evs, u, hn, hrej, huw, hrecv⟩ := feedBytes_behind_garbage hw hg rfl hm
  obtain ⟨hmw, hmh, hme, hmg⟩ := State.received_eq_iff.1 hrecv
  obtain ⟨-, hhist, herr, hacc, hnerr, -, -⟩ := hrej
  obtain ⟨hinbox, hret, htimes, hsteps⟩ := feedBytes_schedule hm
  have hheld : m.wbuf = (frameBytes p).take 16 := hmw.trans huw
  have hexec := exec_frame_of_held hm hheld
  rw [acceptFrame_eq] at hexec
  refine ⟨_, hexec, ?_, ?_, rfl, ?_, ?_, ?_, ?_, hinbox, hret, rfl, ?_, ?_⟩
  · exact List.drop_of_length_le (by simp [hheld])
  · rw [← pushRecord_eq_tail]
    exact congrArg (pushRecord · _) (hmh.trans hhist)
  · rw [← hn]
    exact (congrArg BitVec.toNat hme).trans herr
  · exact congrArg (· + 1) ((congrArg Ghost.nAcc hmg).trans hacc)
  · rw [← hn]
    exact (congrArg Ghost.nErr hmg).trans hnerr
  · change m.now = _
    rw [State.now, htimes, hsteps]
    rfl
  · exact (congrArg List.tail htimes).trans List.tail_drop
  · exact congrArg (· + 1) hsteps

end Sys2Proof.Machine
end
